-- ==== Sys2Proof/Word.lean ====
section
/-! DEFINITION. The three word types of the block (00_scope.md R3, R6; 30_encoding.md R91). -/

namespace Sys2Proof

/-- The data width, 8 bits: a `u8` (00_scope.md R3, R6). -/
abbrev Byte := BitVec 8

/-- The address width, 16 bits: a `u16` (00_scope.md R3, R6). -/
abbrev Addr := BitVec 16

/-- A command word, 32 bits (30_encoding.md R91). -/
abbrev CmdWord := BitVec 32

end Sys2Proof
end

