-- ==== Sys2Proof/Syntax.lean ====
section
/-! DEFINITION. The eight commands of the block (30_encoding.md R90, R93; one constructor per row of
spec/opcode_table.json), and the reasons for which a word spells none of them (30_encoding.md R95). -/

namespace Sys2Proof

/-- A command with its operands (30_encoding.md R90, R92). -/
inductive Instr where
  /-- `STEP`: one machine cycle of the DMA engine (42_dma.md R165). -/
  | step
  /-- `READ addr` (40_bus_ops.md R120). -/
  | read (addr : Addr)
  /-- `WRITE addr, byte` (40_bus_ops.md R125). -/
  | write (addr : Addr) (data : Byte)
  /-- `IETEST bit` (41_interrupt_regs.md R140). -/
  | ietest (bit : Nat)
  /-- `IFTEST bit` (41_interrupt_regs.md R141). -/
  | iftest (bit : Nat)
  /-- `IFSET bit` (41_interrupt_regs.md R142). -/
  | ifset (bit : Nat)
  /-- `IFCLR bit` (41_interrupt_regs.md R143). -/
  | ifclr (bit : Nat)
  /-- `DMA addr` (42_dma.md R160). -/
  | dma (start : Addr)
  deriving DecidableEq, Repr

/-- Why a word spells no command: the classes of 30_encoding.md R95, each with what was found. -/
inductive DecodeError where
  /-- OP in 0x8..0xF. -/
  | reservedOpcode (op : BitVec 4)
  /-- RSV not 0000. -/
  | reservedField (rsv : BitVec 4)
  /-- ADDR not zero in a command that has no address operand. -/
  | addrNotZero (addr : Addr)
  /-- DATA not zero in a command that has no byte or bit operand. -/
  | dataNotZero (data : Byte)
  /-- A bit index above 4. -/
  | bitIndexAboveFour (bit : Nat)
  deriving DecidableEq, Repr

end Sys2Proof
end

