-- ==== Sys2Proof/WellFormed.lean ====
section
/-! DEFINITION. Which commands are admitted: a bit index is 0..4 (30_encoding.md R92, R95); an address and a byte
are bounded by their types (20_memory.md R52). -/

namespace Sys2Proof

/-- The admitted bit indices, 0..4 (30_encoding.md R92). -/
def bitAdmitted (bit : Nat) : Bool := decide (bit ≤ 4)

/-- A command every operand of which is admitted (30_encoding.md R92, R95). -/
def Instr.wf : Instr → Bool
  | .step => true
  | .read _ => true
  | .write _ _ => true
  | .ietest bit => bitAdmitted bit
  | .iftest bit => bitAdmitted bit
  | .ifset bit => bitAdmitted bit
  | .ifclr bit => bitAdmitted bit
  | .dma _ => true

end Sys2Proof
end

