-- ==== Sys2Proof/Decode.lean ====
section
/-! DEFINITION. The decoder of command words (30_encoding.md R91 to R96), the encoder (R98), and the opcode map of R93
as a table of match and mask. -/

namespace Sys2Proof

/-! ### The fields of a command word (30_encoding.md R91) -/

/-- OP, `w[31:28]`. -/
def opField (w : CmdWord) : BitVec 4 := w.extractLsb' 28 4

/-- RSV, `w[27:24]`. -/
def rsvField (w : CmdWord) : BitVec 4 := w.extractLsb' 24 4

/-- ADDR, `w[23:8]`. -/
def addrField (w : CmdWord) : Addr := w.extractLsb' 8 16

/-- DATA, `w[7:0]`. -/
def dataField (w : CmdWord) : Byte := w.extractLsb' 0 8

/-- A word from its four fields, `{OP, RSV, ADDR, DATA}` (30_encoding.md R91, R98). -/
def joinFields (op rsv : BitVec 4) (addr : Addr) (data : Byte) : CmdWord :=
  op ++ rsv ++ addr ++ data

/-! ### The decoder -/

/-- Goes on only if the ADDR field, unused by the command, is zero (30_encoding.md R93, R95). -/
def requireZeroAddr (addr : Addr) (k : Except DecodeError Instr) : Except DecodeError Instr :=
  if addr = 0 then k else .error (.addrNotZero addr)

/-- Goes on only if the DATA field, unused by the command, is zero (30_encoding.md R93, R95). -/
def requireZeroData (data : Byte) (k : Except DecodeError Instr) : Except DecodeError Instr :=
  if data = 0 then k else .error (.dataNotZero data)

/-- A bit command: `BIT = w[7:0]` as an unsigned number, admitted only when `BIT <= 4` (30_encoding.md R92). -/
def decodeBit (addr : Addr) (data : Byte) (mk : Nat → Instr) : Except DecodeError Instr :=
  requireZeroAddr addr
    (if bitAdmitted data.toNat then .ok (mk data.toNat) else .error (.bitIndexAboveFour data.toNat))

/-- The opcode map of 30_encoding.md R93 on the four fields. Where a word fails in several ways, the first of R95's
list is the one named: OP, RSV, ADDR, DATA (log 15). -/
def decodeFields (op rsv : BitVec 4) (addr : Addr) (data : Byte) : Except DecodeError Instr :=
  if 8 ≤ op.toNat then .error (.reservedOpcode op)
  else if rsv ≠ 0 then .error (.reservedField rsv)
  else if op = 0x0 then requireZeroAddr addr (requireZeroData data (.ok .step))
  else if op = 0x1 then requireZeroData data (.ok (.read addr))
  else if op = 0x2 then .ok (.write addr data)
  else if op = 0x3 then decodeBit addr data .ietest
  else if op = 0x4 then decodeBit addr data .iftest
  else if op = 0x5 then decodeBit addr data .ifset
  else if op = 0x6 then decodeBit addr data .ifclr
  else requireZeroData data (.ok (.dma addr))

/-- Decoding is total on every 32-bit word (30_encoding.md R94). -/
def decode (w : CmdWord) : Except DecodeError Instr :=
  decodeFields (opField w) (rsvField w) (addrField w) (dataField w)

/-! ### The encoder -/

/-- The OP of a command (30_encoding.md R93). -/
def Instr.opcode : Instr → BitVec 4
  | .step => 0x0
  | .read _ => 0x1
  | .write _ _ => 0x2
  | .ietest _ => 0x3
  | .iftest _ => 0x4
  | .ifset _ => 0x5
  | .ifclr _ => 0x6
  | .dma _ => 0x7

/-- The ADDR field of a command, 0 where it has no address operand (30_encoding.md R98). -/
def Instr.addrOperand : Instr → Addr
  | .step => 0
  | .read addr => addr
  | .write addr _ => addr
  | .ietest _ => 0
  | .iftest _ => 0
  | .ifset _ => 0
  | .ifclr _ => 0
  | .dma start => start

/-- The DATA field of a command: the byte or bit operand, 0 if none (30_encoding.md R98). -/
def Instr.dataOperand : Instr → Byte
  | .step => 0
  | .read _ => 0
  | .write _ data => data
  | .ietest bit => BitVec.ofNat 8 bit
  | .iftest bit => BitVec.ofNat 8 bit
  | .ifset bit => BitVec.ofNat 8 bit
  | .ifclr bit => BitVec.ofNat 8 bit
  | .dma _ => 0

/-- `w = {OP, 0b0000, ADDR, DATA}` (30_encoding.md R98). -/
def encode (i : Instr) : CmdWord := joinFields i.opcode 0 i.addrOperand i.dataOperand

/-! ### The opcode map as match and mask -/

/-- One row of the table of 30_encoding.md R93: a word matches when `w &&& mask = value`; where `bitLimit` holds, a
matching word is admitted only when `w[2:0] <= 4`. -/
structure OpcodeRow where
  mnemonic : String
  value    : CmdWord
  mask     : CmdWord
  bitLimit : Bool
  deriving DecidableEq, Repr

/-- The eight rows of 30_encoding.md R93, in its order. -/
def opcodeRows : List OpcodeRow :=
  [⟨"STEP", 0x00000000, 0xFFFFFFFF, false⟩,
   ⟨"READ", 0x10000000, 0xFF0000FF, false⟩,
   ⟨"WRITE", 0x20000000, 0xFF000000, false⟩,
   ⟨"IETEST", 0x30000000, 0xFFFFFFF8, true⟩,
   ⟨"IFTEST", 0x40000000, 0xFFFFFFF8, true⟩,
   ⟨"IFSET", 0x50000000, 0xFFFFFFF8, true⟩,
   ⟨"IFCLR", 0x60000000, 0xFFFFFFF8, true⟩,
   ⟨"DMA", 0x70000000, 0xFF0000FF, false⟩]

/-- Whether a row spells a word: match, mask and the row's field constraint (30_encoding.md R93, R94). -/
def OpcodeRow.spells (r : OpcodeRow) (w : CmdWord) : Bool :=
  w &&& r.mask == r.value && (!r.bitLimit || decide ((w.extractLsb' 0 3).toNat ≤ 4))

/-- The table's name of a command (30_encoding.md R90). -/
def Instr.mnemonic : Instr → String
  | .step => "STEP"
  | .read _ => "READ"
  | .write _ _ => "WRITE"
  | .ietest _ => "IETEST"
  | .iftest _ => "IFTEST"
  | .ifset _ => "IFSET"
  | .ifclr _ => "IFCLR"
  | .dma _ => "DMA"

/-! ### The host's view of a table word -/

/-- The word of the command port whose low `nbits` bits are those of `w` and whose other bits are 0. Every command is
one 32-bit word (30_encoding.md R91), so no byte order and no second word arise. -/
def tableWord (nbits w : Nat) : CmdWord := BitVec.ofNat 32 (w % 2 ^ nbits)

/-- What the decoder reads from a word given as the opcode table numbers its bits. -/
def decodeTableWord (nbits w : Nat) : Option Instr :=
  match decode (tableWord nbits w) with
  | .ok i => some i
  | .error _ => none

end Sys2Proof
end

