-- ==== Sys2Proof/Config.lean ====
section
/-! DEFINITION. What is fixed for one block: its sizes (00_scope.md R3), its named parameters (R4), and the
cartridge it is wired to, whose behaviour the spec leaves OPEN (20_memory.md R70, R72; log 4). -/

namespace Sys2Proof

/-- The five register addresses the block takes as parameters (00_scope.md R4; log 5). -/
structure Config where
  /-- DIV_ADDR, the divider register. -/
  divAddr      : Addr
  /-- BOOT_CTRL_ADDR, the boot-control byte. -/
  bootCtrlAddr : Addr
  /-- IF_ADDR, the InterruptFlagRegister. -/
  ifAddr       : Addr
  /-- IE_ADDR, the InterruptEnableRegister. -/
  ieAddr       : Addr
  /-- DMA_REG_ADDR, the DMA-trigger register. -/
  dmaRegAddr   : Addr
  deriving DecidableEq, Repr

/-- The default values of 00_scope.md R4 (the spec's decision D1, from general knowledge; log 5). -/
def Config.defaults : Config :=
  { divAddr := 0xFF04, bootCtrlAddr := 0xFF50, ifAddr := 0xFF0F, ieAddr := 0xFFFF, dmaRegAddr := 0xFF46 }

/-- AddressSpace holds 65,536 bytes (00_scope.md R3). -/
abbrev Config.spaceSize : Nat := 65536

/-- The boot overlay holds 256 bytes (00_scope.md R3). -/
abbrev Config.overlaySize : Nat := 256

/-- A DMA moves 160 bytes (00_scope.md R3). -/
abbrev Config.dmaLength : Nat := 160

/-- The DMA busy window is 160 STEP commands (00_scope.md R3). -/
abbrev Config.busyWindow : Nat := 160

/-- The DMA destination starts at 0xFE00 (00_scope.md R3). -/
abbrev Config.dmaDest : Addr := 0xFE00

/-- `Cart.State`: the state of the cartridge, opaque to the block (10_state.md R33). It is written as a string of
bytes so that a state of the block stays plain data; what the bytes mean is the cartridge's business (log 4). -/
structure CartState where
  bytes : List Byte
  deriving DecidableEq, Repr, Inhabited

/-- The cartridge's own error, "propagated upward unchanged by this core" (60_exceptions.md R181); its taxonomy is
the cartridge's (log 4). -/
structure CartError where
  bytes : List Byte
  deriving DecidableEq, Repr, Inhabited

/-- `Cart.init : ROM image -> Cart.State or CartridgeError` (20_memory.md R70). OPEN: no body (log 4). -/
opaque Config.cartInit : List Byte → Except CartError CartState

/-- `cartRead : Cart.State -> u16 -> u8` (20_memory.md R70). OPEN: no body, and it changes no state by its type
(R71; log 4, log 21). -/
opaque Config.cartRead : CartState → Addr → Byte

/-- `cartWrite : Cart.State -> u16 -> u8 -> Cart.State` (20_memory.md R70). OPEN: no body (log 4). -/
opaque Config.cartWrite : CartState → Addr → Byte → CartState

/-- The state of the cartridge that stands in the machine `State.reset` (10_state.md R44). OPEN: no body (log 4). -/
opaque Config.resetCart : CartState

end Sys2Proof
end

