-- ==== Sys2Proof/Machine/State.lean ====
section
/-! DEFINITION. The state of the block (10_state.md R22 to R36), the ways an operation can stop, and the state after
reset (10_state.md R40 to R44). -/

namespace Sys2Proof.Machine

/-- A byte store: the bytes that are not 0x00, by address, addresses strictly rising (`Memory.wf`); every address that
is not listed reads as `Memory.unlisted`. -/
abbrev Memory := List Host.Cell

/-- What an unlisted address reads as: 0x00, the value after initialisation of every byte the spec does not set
otherwise (10_state.md R40, R43; log 6, log 7). -/
def Memory.unlisted : Byte := 0x00

/-- DMAState, `{active, elapsedCycles}` (10_state.md R31): Idle when `active` is false, Active(elapsed) otherwise. -/
structure Dma where
  active  : Bool
  elapsed : Byte
  deriving DecidableEq, Repr

/-- `Idle` with the counter at 0 (10_state.md R42). -/
def Dma.idle : Dma := { active := false, elapsed := 0 }

/-- The whole state: (AS, OV, dma, c) of 70_reset_and_hazards.md R200, the parameters of 00_scope.md R4, and the two
ports of 30_encoding.md. -/
structure State where
  /-- The register addresses, fixed for the machine (00_scope.md R4). -/
  cfg      : Config
  /-- AddressSpace `AS`, 65,536 bytes (10_state.md R22). -/
  mem      : Memory
  /-- The boot overlay `OV`, 256 bytes (10_state.md R24). -/
  ov       : Memory
  /-- DMAState (10_state.md R31). -/
  dma      : Dma
  /-- The cartridge's state `c` (10_state.md R33). -/
  cart     : CartState
  /-- The command port: the words the host has yet to issue, oldest first (20_memory.md R80; the model's own field,
  log 1). -/
  commands : List CmdWord
  /-- The response port: what the last command answered, nothing if it has no result (30_encoding.md R92; the model's
  own field, log 2). -/
  response : Option Byte
  deriving DecidableEq, Repr

/-- An input of initialisation that can fail (60_exceptions.md R181: "which input failed (the boot image)"). -/
inductive InitInput where
  | bootImage
  deriving DecidableEq, Repr

/-- The errors of the spec. No command raises one (60_exceptions.md R180); initialisation raises them and builds no
state (R181). -/
inductive Fault where
  /-- `InitializationError`: "boot image path supplied but unreadable" (60_exceptions.md R181). Raised by `init` alone.
  Safe: it is the spec's own outcome. -/
  | initializationError (which : InitInput)
  /-- `CartridgeError(e)`: the cartridge failed to build (60_exceptions.md R181). Raised by `init` alone. Safe: it is
  the spec's own outcome. -/
  | cartridgeError (e : CartError)
  deriving DecidableEq, Repr

/-- The verdict that an input has no meaning (60_exceptions.md R182; log 3). -/
inductive Refusal where
  /-- A command of the opcode table that the model gives no meaning. Raised by no arm of this model. Safe. -/
  | notModelled (mnemonic : String)
  /-- The word spells no command (30_encoding.md R95, 60_exceptions.md R182). Raised by `step` on the decoder's word,
  and by the bit commands on a bit index above 4 (log 14). Safe: the model has no run where the source gives no
  behaviour. -/
  | noSuchCommand (why : DecodeError)
  /-- A command issued when no state exists (60_exceptions.md R182, 70_reset_and_hazards.md R206). Raised by
  `Session.issue` (log 17). Safe. -/
  | noState
  /-- The register addresses break 00_scope.md R5. Raised by `init` (log 23). Safe. -/
  | badConfiguration
  deriving DecidableEq, Repr

/-- The machine after `init(None, rom)` at the default register addresses (10_state.md R40 to R44): every byte 0x00 but
the boot-control byte, which is 0x01; Idle; the cartridge as its ROM image built it; both ports empty (log 1, log 2,
log 16). -/
def State.reset : State :=
  { cfg      := Config.defaults
    mem      := [(0xFF50, 0x01)]
    ov       := []
    dma      := Dma.idle
    cart     := Config.resetCart
    commands := []
    response := none }

end Sys2Proof.Machine
end

