-- ==== Sys2Proof/Machine/Ops.lean ====
section
/-! DEFINITION. The named operations over the state: one byte of a store, the read decoder MemRead (20_memory.md R55), the
write decoder MemWrite (R60), and the ports. The block takes no exceptions (60_exceptions.md R183), so no operation
enters or leaves one. -/

namespace Sys2Proof.Machine

/-! ### A byte store -/

/-- The byte of `m` at address `a`. -/
def Memory.readByte : Memory → Nat → Byte
  | [], _ => Memory.unlisted
  | (b, w) :: m, a => if a = b then w else Memory.readByte m a

/-- A cell in front of `m`, left out when it holds what an unlisted address reads as. -/
def Memory.putCell (a : Nat) (v : Byte) (m : Memory) : Memory :=
  if v = Memory.unlisted then m else (a, v) :: m

/-- `m` with `v` at address `a`, in canonical form if `m` is. -/
def Memory.writeByte : Memory → Nat → Byte → Memory
  | [], a, v => Memory.putCell a v []
  | (b, w) :: m, a, v =>
    if a < b then Memory.putCell a v ((b, w) :: m)
    else if a = b then Memory.putCell a v m
    else (b, w) :: Memory.writeByte m a v

/-- `m` with the bytes `vs` at `base`, `base + 1`, and so on. -/
def Memory.storeBytes : Memory → Nat → List Byte → Memory
  | m, _, [] => m
  | m, base, v :: vs => Memory.storeBytes (Memory.writeByte m base v) (base + 1) vs

/-- Every address is at least `lo` and below `size`, addresses strictly rise, and no cell holds what an unlisted address
reads as. -/
def Memory.wfFrom (size : Nat) : Nat → Memory → Bool
  | _, [] => true
  | lo, (a, v) :: m =>
    decide (lo ≤ a) && decide (a < size) && decide (v ≠ Memory.unlisted) && Memory.wfFrom size (a + 1) m

/-- The canonical form of a store of `size` bytes. -/
def Memory.wf (size : Nat) (m : Memory) : Bool := Memory.wfFrom size 0 m

/-! ### Updates of one part of the state -/

/-- The state with another AddressSpace. -/
def State.withMem (s : State) (m : Memory) : State := { s with mem := m }

/-- The state with another boot overlay; no command does this (10_state.md R24), statements about the overlay do. -/
def State.withOverlay (s : State) (o : Memory) : State := { s with ov := o }

/-- The state with another DMA state. -/
def State.withDma (s : State) (d : Dma) : State := { s with dma := d }

/-- The state with another cartridge state. -/
def State.withCart (s : State) (c : CartState) : State := { s with cart := c }

/-- The state with other commands waiting. -/
def State.withCommands (s : State) (ws : List CmdWord) : State := { s with commands := ws }

/-- The state with `r` on the response port (30_encoding.md R92; log 2). -/
def State.respond (s : State) (r : Option Byte) : State := { s with response := r }

/-! ### AddressSpace, the overlay and the registers -/

/-- `AS[a]` (00_scope.md R7). -/
def State.byteAt (s : State) (a : Addr) : Byte := s.mem.readByte a.toNat

/-- `AS[a] <- v` (00_scope.md R7). -/
def State.setByte (s : State) (a : Addr) (v : Byte) : State := s.withMem (s.mem.writeByte a.toNat v)

/-- `OV[i]` (00_scope.md R7). -/
def State.overlayAt (s : State) (i : Byte) : Byte := s.ov.readByte i.toNat

/-- The boot-control byte (10_state.md R25). -/
def State.bootCtrl (s : State) : Byte := s.byteAt s.cfg.bootCtrlAddr

/-- `overlayActive(s) = (s.AS[BOOT_CTRL_ADDR] == 0x00)` (10_state.md R25). -/
def State.overlayActive (s : State) : Bool := s.bootCtrl == 0x00

/-- IE, the InterruptEnableRegister (10_state.md R26). -/
def State.ieReg (s : State) : Byte := s.byteAt s.cfg.ieAddr

/-- IF, the InterruptFlagRegister (10_state.md R27). -/
def State.ifReg (s : State) : Byte := s.byteAt s.cfg.ifAddr

/-- `IF <- v` (41_interrupt_regs.md R139: directly, not through the decoders). -/
def State.setIfReg (s : State) (v : Byte) : State := s.setByte s.cfg.ifAddr v

/-- DIV, the divider register (10_state.md R29; nothing in the block advances it, log 18). -/
def State.divReg (s : State) : Byte := s.byteAt s.cfg.divAddr

/-- The DMA-trigger register, a plain byte (10_state.md R30; log 11). -/
def State.dmaTrigger (s : State) : Byte := s.byteAt s.cfg.dmaRegAddr

/-- The output signal `dma_busy = DMAState.active` (10_state.md R32). -/
def State.dmaBusy (s : State) : Bool := s.dma.active

/-! ### The address ranges of the decoders -/

/-- The ROM window of reads, 0x0000..0x7FFF (20_memory.md R55 RD2). -/
def inRomRead (a : Addr) : Bool := decide (a < 0x8000)

/-- The ROM window of writes, 0x0000..0x8000: it takes in 0x8000 (20_memory.md R60 WR1, R61; log 12). -/
def inRomWrite (a : Addr) : Bool := decide (a ≤ 0x8000)

/-- The external RAM window, 0xA000..0xBFFF (20_memory.md R55 RD3, R60 WR2). -/
def inRamWindow (a : Addr) : Bool := decide (0xA000 ≤ a ∧ a ≤ 0xBFFF)

/-- Working RAM with an echo above it, 0xC000..0xDDFF (20_memory.md R60 WR3). -/
def inEchoedRam (a : Addr) : Bool := decide (0xC000 ≤ a ∧ a ≤ 0xDDFF)

/-- The tail of working RAM without a mirror, 0xDE00..0xDFFF (20_memory.md R60 WR4). -/
def inRamTail (a : Addr) : Bool := decide (0xDE00 ≤ a ∧ a ≤ 0xDFFF)

/-- The echo region, 0xE000..0xFDFF (20_memory.md R60 WR5). -/
def inEcho (a : Addr) : Bool := decide (0xE000 ≤ a ∧ a ≤ 0xFDFF)

/-- The mirror above an address of working RAM (20_memory.md R60 WR3). -/
def echoUp (a : Addr) : Addr := a + 0x2000

/-- The working RAM below an address of the echo region (20_memory.md R60 WR5). -/
def echoDown (a : Addr) : Addr := a - 0x2000

/-! ### The two decoders -/

/-- `MemRead(a, 1)`: RD1 to RD4, first match wins (20_memory.md R55). It changes no state (R56). -/
def memRead (s : State) (a : Addr) : Byte :=
  if a < 0x0100 ∧ s.overlayActive then s.overlayAt (a.setWidth 8)
  else if inRomRead a then Config.cartRead s.cart a
  else if inRamWindow a then Config.cartRead s.cart a
  else s.byteAt a

/-- A write to the boot-control byte, step WR6B: 0x00 onto a nonzero byte is ignored (20_memory.md R65; log 8). -/
def bootCtrlWrite (s : State) (a : Addr) (v : Byte) : State :=
  if s.byteAt a ≠ 0x00 ∧ v = 0x00 then s else s.setByte a v

/-- `MemWrite(a, 1, v)`: WR1 to WR7, first match wins (20_memory.md R60, R68). -/
def memWrite (s : State) (a : Addr) (v : Byte) : State :=
  if inRomWrite a then s.withCart (Config.cartWrite s.cart a v)
  else if inRamWindow a then s.withCart (Config.cartWrite s.cart a v)
  else if inEchoedRam a then (s.setByte a v).setByte (echoUp a) v
  else if inRamTail a then s.setByte a v
  else if inEcho a then (s.setByte a v).setByte (echoDown a) v
  else if a = s.cfg.divAddr then s.setByte a 0x00
  else if a = s.cfg.bootCtrlAddr then bootCtrlWrite s a v
  else s.setByte a v

end Sys2Proof.Machine
end

