-- ==== Sys2Proof/Machine/Bus.lean ====
section
/-! DEFINITION. The bus operations READ and WRITE (40_bus_ops.md). -/

namespace Sys2Proof.Machine

/-- `READ addr`: `result <- MemRead(ADDR, 1)`; no state changes (40_bus_ops.md R120). -/
def execRead (addr : Addr) (s : State) : Host.Outcome State Fault Refusal :=
  .next (s.respond (some (memRead s addr)))

/-- `WRITE addr, byte`: `MemWrite(ADDR, 1, DATA)`; no result (40_bus_ops.md R125). -/
def execWrite (addr : Addr) (data : Byte) (s : State) : Host.Outcome State Fault Refusal :=
  .next ((memWrite s addr data).respond none)

end Sys2Proof.Machine
end

