-- ==== Sys2Proof/Machine/Operands.lean ====
section
/-! DEFINITION. The operand forms of the commands (30_encoding.md R92): the address of a DMA's source and destination
bytes, the bit index, and a bool on the response port. -/

namespace Sys2Proof.Machine

/-- The source address of byte `i` of a DMA, `(start + i) mod 0x10000` (42_dma.md R160; log 9). -/
def dmaSource (start : Addr) (i : Nat) : Addr := start + BitVec.ofNat 16 i

/-- The 160 source bytes of a DMA, each through the read decoder, all read before any is written (42_dma.md R160,
R162; log 10). -/
def dmaBuffer (s : State) (start : Addr) : List Byte :=
  (List.range Config.dmaLength).map fun i => memRead s (dmaSource start i)

/-- A bool as the byte on the response port, 0x00 or 0x01 (30_encoding.md R92). -/
def boolByte (b : Bool) : Byte := if b then 0x01 else 0x00

/-- Goes on with an admitted bit index; one above 4 is refused (30_encoding.md R95, 60_exceptions.md R182; log 14). -/
def withBit (bit : Nat) (k : Host.Outcome State Fault Refusal) : Host.Outcome State Fault Refusal :=
  if bitAdmitted bit then k else .refused (.noSuchCommand (.bitIndexAboveFour bit))

end Sys2Proof.Machine
end

