-- ==== Sys2Proof/Machine/DmaEngine.lean ====
section
/-! DEFINITION. The DMA engine: DMA and STEP (42_dma.md). -/

namespace Sys2Proof.Machine

/-- The copy of a DMA into `AS[0xFE00..0xFE9F]`, directly, not through MemWrite (42_dma.md R160, R163; log 10). -/
def dmaCopy (s : State) (start : Addr) : State :=
  s.withMem (s.mem.storeBytes Config.dmaDest.toNat (dmaBuffer s start))

/-- One machine cycle of the engine (42_dma.md R165). -/
def Dma.advance (d : Dma) : Dma :=
  if d.active then
    if d.elapsed + 1 = BitVec.ofNat 8 Config.busyWindow then { active := false, elapsed := 0 }
    else { active := true, elapsed := d.elapsed + 1 }
  else d

/-- `DMA addr`: the copy, then `Active(0)`; no result (42_dma.md R160). -/
def execDma (start : Addr) (s : State) : Host.Outcome State Fault Refusal :=
  .next (((dmaCopy s start).withDma { active := true, elapsed := 0 }).respond none)

/-- `STEP`: one machine cycle; no result (42_dma.md R165). -/
def execStep (s : State) : Host.Outcome State Fault Refusal :=
  .next ((s.withDma s.dma.advance).respond none)

end Sys2Proof.Machine
end

