-- ==== Sys2Proof/Machine/Flags.lean ====
section
/-! DEFINITION. The bit operations on IE and IF (41_interrupt_regs.md R140 to R143) and the five interrupt sources
(10_state.md R28). The block has no condition flags (R20). -/

namespace Sys2Proof.Machine

/-- `1 << k`, the byte with only bit k set (00_scope.md R6). -/
def bitMask (k : Nat) : Byte := 1#8 <<< k

/-- `(v & (1 << k)) != 0x00` (41_interrupt_regs.md R140, R141). -/
def testBit (v : Byte) (k : Nat) : Bool := v &&& bitMask k != 0x00

/-- `v | (1 << k)` (41_interrupt_regs.md R142). -/
def setBit (v : Byte) (k : Nat) : Byte := v ||| bitMask k

/-- `v & ~(1 << k)` (41_interrupt_regs.md R143). -/
def clearBit (v : Byte) (k : Nat) : Byte := v &&& ~~~bitMask k

/-- The five interrupt sources (10_state.md R28, 60_exceptions.md R184; log 19). -/
inductive InterruptSource where
  | vblank | lcdStatus | timer | serial | joypad
  deriving DecidableEq, Repr

/-- The bit of a source in IE and in IF (10_state.md R28; log 19). -/
def InterruptSource.bit : InterruptSource → Nat
  | .vblank => 0
  | .lcdStatus => 1
  | .timer => 2
  | .serial => 3
  | .joypad => 4

/-- Whether a source is enabled (10_state.md R28). -/
def State.enabled (s : State) (src : InterruptSource) : Bool := testBit s.ieReg src.bit

/-- Whether a source is pending (10_state.md R28). -/
def State.pending (s : State) (src : InterruptSource) : Bool := testBit s.ifReg src.bit

end Sys2Proof.Machine
end

