-- ==== Sys2Proof/Machine/Interrupts.lean ====
section
/-! DEFINITION. The interrupt register accessors IETEST, IFTEST, IFSET and IFCLR (41_interrupt_regs.md R139 to R146).
None of them raises or delivers an interrupt (R146). -/

namespace Sys2Proof.Machine

/-- `IETEST bit`: `result <- (AS[IE_ADDR] & (1 << BIT)) != 0x00` (41_interrupt_regs.md R140). -/
def execIetest (bit : Nat) (s : State) : Host.Outcome State Fault Refusal :=
  withBit bit (.next (s.respond (some (boolByte (testBit s.ieReg bit)))))

/-- `IFTEST bit`: `result <- (AS[IF_ADDR] & (1 << BIT)) != 0x00` (41_interrupt_regs.md R141). -/
def execIftest (bit : Nat) (s : State) : Host.Outcome State Fault Refusal :=
  withBit bit (.next (s.respond (some (boolByte (testBit s.ifReg bit)))))

/-- `IFSET bit`: `AS[IF_ADDR] <- AS[IF_ADDR] | (1 << BIT)`; no result (41_interrupt_regs.md R142). -/
def execIfset (bit : Nat) (s : State) : Host.Outcome State Fault Refusal :=
  withBit bit (.next ((s.setIfReg (setBit s.ifReg bit)).respond none))

/-- `IFCLR bit`: `AS[IF_ADDR] <- AS[IF_ADDR] & ~(1 << BIT)`; no result (41_interrupt_regs.md R143). -/
def execIfclr (bit : Nat) (s : State) : Host.Outcome State Fault Refusal :=
  withBit bit (.next ((s.setIfReg (clearBit s.ifReg bit)).respond none))

end Sys2Proof.Machine
end

