-- ==== Sys2Proof/Machine/Dispatch.lean ====
section
/-! DEFINITION. One arm per command (30_encoding.md R90, R93). -/

namespace Sys2Proof.Machine

def exec (i : Instr) (s : State) : Host.Outcome State Fault Refusal :=
  match i with
  | .step => Sys2Proof.Machine.execStep s
  | .read addr => Sys2Proof.Machine.execRead addr s
  | .write addr data => Sys2Proof.Machine.execWrite addr data s
  | .ietest bit => Sys2Proof.Machine.execIetest bit s
  | .iftest bit => Sys2Proof.Machine.execIftest bit s
  | .ifset bit => Sys2Proof.Machine.execIfset bit s
  | .ifclr bit => Sys2Proof.Machine.execIfclr bit s
  | .dma start => Sys2Proof.Machine.execDma start s

end Sys2Proof.Machine
end

