-- ==== Sys2Proof/Machine/Step.lean ====
section
/-! DEFINITION. One step of the machine: the oldest command the host has issued is taken, decoded and executed, whole
(00_scope.md R9; 20_memory.md R80). The block has no program counter and fetches nothing (10_state.md R21; log 1). -/

namespace Sys2Proof.Machine

/-- One command word on the command port: executed if it spells a command, refused otherwise (30_encoding.md R94;
60_exceptions.md R182; log 3). -/
def runWord (w : CmdWord) (s : State) : Host.Outcome State Fault Refusal :=
  match decode w with
  | .ok i => exec i s
  | .error e => .refused (.noSuchCommand e)

/-- The oldest waiting command runs. With none waiting nothing changes: the state "persists unchanged between any two
commands" (60_exceptions.md R192; log 1). -/
def step (s : State) : Host.Outcome State Fault Refusal :=
  match s.commands with
  | [] => .next s
  | w :: ws => runWord w (s.withCommands ws)

/-- `s` with the command word of a table row as its next command (log 1). -/
def State.withFetchWord (s : State) (nbits w : Nat) : State :=
  s.withCommands (tableWord nbits w :: s.commands)

end Sys2Proof.Machine
end

