-- ==== Sys2Proof/Machine/Assembler.lean ====
section
/-! DEFINITION. The assembler syntax and the pseudo-instructions (30_encoding.md R97 to R99). It is notation only: no
definition of the machine uses it. What R97 leaves open in the text is in log 20. -/

namespace Sys2Proof.Machine

/-- One line with its operands as numbers: the eight commands and the six pseudo-instructions (30_encoding.md R97,
R99). -/
inductive AsmLine where
  | step
  | read (addr : Nat)
  | write (addr data : Nat)
  | ietest (bit : Nat)
  | iftest (bit : Nat)
  | ifset (bit : Nat)
  | ifclr (bit : Nat)
  | dma (addr : Nat)
  | stepn (n : Nat)
  | dmawait
  | divreset
  | bootoff
  | iewrite (v : Nat)
  | ifwrite (v : Nat)
  deriving DecidableEq, Repr

/-- `addr` is 0..0xFFFF; anything else is an assembly error (30_encoding.md R97). -/
def asmAddr (a : Nat) : Option Addr := if a ≤ 0xFFFF then some (BitVec.ofNat 16 a) else none

/-- `byte` is 0..0xFF; anything else is an assembly error (30_encoding.md R97). -/
def asmByte (v : Nat) : Option Byte := if v ≤ 0xFF then some (BitVec.ofNat 8 v) else none

/-- `bit` is 0..4; anything else is an assembly error (30_encoding.md R97). -/
def asmBit (b : Nat) : Option Nat := if bitAdmitted b then some b else none

/-- The commands a line stands for; none is an assembly error (30_encoding.md R97 to R99). -/
def AsmLine.expand (cfg : Config) : AsmLine → Option (List Instr)
  | .step => some [.step]
  | .read a => (asmAddr a).map fun x => [.read x]
  | .write a v => (asmAddr a).bind fun x => (asmByte v).map fun y => [.write x y]
  | .ietest b => (asmBit b).map fun k => [.ietest k]
  | .iftest b => (asmBit b).map fun k => [.iftest k]
  | .ifset b => (asmBit b).map fun k => [.ifset k]
  | .ifclr b => (asmBit b).map fun k => [.ifclr k]
  | .dma a => (asmAddr a).map fun x => [.dma x]
  | .stepn n => if 1 ≤ n then some (List.replicate n .step) else none
  | .dmawait => some (List.replicate Config.busyWindow .step)
  | .divreset => some [.write cfg.divAddr 0x00]
  | .bootoff => some [.write cfg.bootCtrlAddr 0x01]
  | .iewrite v => (asmByte v).map fun y => [.write cfg.ieAddr y]
  | .ifwrite v => (asmByte v).map fun y => [.write cfg.ifAddr y]

/-- The words of a line (30_encoding.md R98, R99). -/
def AsmLine.assemble (cfg : Config) (l : AsmLine) : Option (List CmdWord) :=
  (l.expand cfg).map fun is => is.map encode

/-! ### The text of a line (30_encoding.md R97) -/

/-- Space or tab. -/
def isBlank (c : Char) : Bool := c == ' ' || c == '\t'

/-- Without blanks at either end. -/
def trimBlanks (cs : List Char) : List Char :=
  ((cs.dropWhile isBlank).reverse.dropWhile isBlank).reverse

/-- The text before a `;`, which starts a comment that runs to the end of the line. -/
def dropComment (cs : List Char) : List Char := cs.takeWhile (· != ';')

/-- The pieces between commas. -/
def splitCommas : List Char → List (List Char)
  | [] => [[]]
  | c :: cs =>
    if c = ',' then [] :: splitCommas cs
    else match splitCommas cs with
      | [] => [[c]]
      | p :: ps => (c :: p) :: ps

/-- The value of a digit, hexadecimal digits in either case. -/
def digitValue (c : Char) : Option Nat :=
  if 48 ≤ c.toNat ∧ c.toNat ≤ 57 then some (c.toNat - 48)
  else if 65 ≤ c.toNat ∧ c.toNat ≤ 70 then some (c.toNat - 55)
  else if 97 ≤ c.toNat ∧ c.toNat ≤ 102 then some (c.toNat - 87)
  else none

/-- The number a run of digits spells in a base, onto `acc`. -/
def parseDigits (base : Nat) : Nat → List Char → Option Nat
  | acc, [] => some acc
  | acc, c :: cs =>
    match digitValue c with
    | some d => if d < base then parseDigits base (acc * base + d) cs else none
    | none => none

/-- A number: hexadecimal with a `0x` prefix, or decimal; at least one digit. -/
def parseNumber : List Char → Option Nat
  | '0' :: 'x' :: c :: cs => parseDigits 16 0 (c :: cs)
  | c :: cs => parseDigits 10 0 (c :: cs)
  | [] => none

/-- The operands after a mnemonic, separated by commas. -/
def parseOperands (cs : List Char) : Option (List Nat) :=
  if cs = [] then some [] else (splitCommas cs).mapM fun p => parseNumber (trimBlanks p)

/-- A form without operands. -/
def noOperand (l : AsmLine) : List Nat → Option AsmLine
  | [] => some l
  | _ :: _ => none

/-- A form with one operand. -/
def oneOperand (mk : Nat → AsmLine) : List Nat → Option AsmLine
  | [a] => some (mk a)
  | [] => none
  | _ :: _ :: _ => none

/-- A form with two operands. -/
def twoOperands (mk : Nat → Nat → AsmLine) : List Nat → Option AsmLine
  | [a, b] => some (mk a b)
  | [] => none
  | [_] => none
  | _ :: _ :: _ :: _ => none

/-- The mnemonics and their forms (30_encoding.md R97, R99). -/
def asmForms : List (List Char × (List Nat → Option AsmLine)) :=
  [(['S','T','E','P'], noOperand .step),
   (['R','E','A','D'], oneOperand .read),
   (['W','R','I','T','E'], twoOperands .write),
   (['I','E','T','E','S','T'], oneOperand .ietest),
   (['I','F','T','E','S','T'], oneOperand .iftest),
   (['I','F','S','E','T'], oneOperand .ifset),
   (['I','F','C','L','R'], oneOperand .ifclr),
   (['D','M','A'], oneOperand .dma),
   (['S','T','E','P','N'], oneOperand .stepn),
   (['D','M','A','W','A','I','T'], noOperand .dmawait),
   (['D','I','V','R','E','S','E','T'], noOperand .divreset),
   (['B','O','O','T','O','F','F'], noOperand .bootoff),
   (['I','E','W','R','I','T','E'], oneOperand .iewrite),
   (['I','F','W','R','I','T','E'], oneOperand .ifwrite)]

/-- The form of a mnemonic. -/
def findForm (m : List Char) : List (List Char × (List Nat → Option AsmLine)) → Option (List Nat → Option AsmLine)
  | [] => none
  | (n, f) :: fs => if m = n then some f else findForm m fs

/-- A line without its comment: a mnemonic, then its operands. -/
def parseBody (cs : List Char) : Option AsmLine :=
  (findForm (cs.takeWhile fun c => !isBlank c) asmForms).bind fun f =>
    (parseOperands (trimBlanks (cs.dropWhile fun c => !isBlank c))).bind f

/-- The words of one line of text; a line with nothing but a comment holds none; none is an assembly error. -/
def assembleLine (cfg : Config) (line : List Char) : Option (List CmdWord) :=
  let body := trimBlanks (dropComment line)
  if body = [] then some [] else (parseBody body).bind (AsmLine.assemble cfg)

/-- The words of a text of several lines, one command per line (30_encoding.md R97). -/
def assembleLines (cfg : Config) : List (List Char) → Option (List CmdWord)
  | [] => some []
  | l :: ls => (assembleLine cfg l).bind fun ws => (assembleLines cfg ls).map fun rest => ws ++ rest

end Sys2Proof.Machine
end

