-- ==== Sys2Proof/Machine/Init.lean ====
section
/-! DEFINITION. Initialisation, the block's reset input (70_reset_and_hazards.md R200), with its two errors
(60_exceptions.md R181) and the configurations the model refuses (00_scope.md R5). -/

namespace Sys2Proof.Machine

/-- The boot image input of init: `None`, `Unreadable` or `Bytes(b)` (70_reset_and_hazards.md R200). -/
inductive BootImage where
  | none
  | unreadable
  | bytes (b : List Byte)
  deriving DecidableEq, Repr

/-- A register address in 0xFEA0..0xFFFF (00_scope.md R5). -/
def inRegisterRange (a : Addr) : Bool := decide (0xFEA0 ≤ a)

/-- The five addresses lie in 0xFEA0..0xFFFF and are pairwise distinct (00_scope.md R5). -/
def configValid (cfg : Config) : Bool :=
  inRegisterRange cfg.divAddr && inRegisterRange cfg.bootCtrlAddr && inRegisterRange cfg.ifAddr &&
  inRegisterRange cfg.ieAddr && inRegisterRange cfg.dmaRegAddr &&
  decide ([cfg.divAddr, cfg.bootCtrlAddr, cfg.ifAddr, cfg.ieAddr, cfg.dmaRegAddr].Nodup)

/-- `OV` after init: the image cut to 256 bytes, the rest 0x00; all 0x00 without one (10_state.md R43; log 7). -/
def overlayOf : BootImage → Memory
  | .none => []
  | .unreadable => []
  | .bytes b => Memory.storeBytes [] 0 (b.take Config.overlaySize)

/-- The boot-control byte after init: 0x01 without an image, 0x00 with one (10_state.md R41). -/
def bootCtrlOf : BootImage → Byte
  | .none => 0x01
  | .unreadable => 0x01
  | .bytes _ => 0x00

/-- The state init builds (10_state.md R40 to R44; both ports empty, log 1, log 2). -/
def initialState (cfg : Config) (img : BootImage) (c : CartState) : State :=
  { cfg      := cfg
    mem      := Memory.writeByte [] cfg.bootCtrlAddr.toNat (bootCtrlOf img)
    ov       := overlayOf img
    dma      := Dma.idle
    cart     := c
    commands := []
    response := none }

/-- Builds the state from what the cartridge's constructor returned: its state, or its own error passed on unchanged
(70_reset_and_hazards.md R200, 60_exceptions.md R181). -/
def initWithCart (cfg : Config) (img : BootImage) (cart : Except CartError CartState) :
    Host.Outcome State Fault Refusal :=
  match cart with
  | .error e => .fault (.cartridgeError e)
  | .ok c => .next (initialState cfg img c)

/-- `init` given what `Cart.init(rom)` returned: the configuration is checked (00_scope.md R5; log 23), then the boot
image, then the cartridge (70_reset_and_hazards.md R200). -/
def initFrom (cfg : Config) (img : BootImage) (cart : Except CartError CartState) :
    Host.Outcome State Fault Refusal :=
  if configValid cfg then
    match img with
    | .unreadable => .fault (.initializationError .bootImage)
    | .none => initWithCart cfg .none cart
    | .bytes b => initWithCart cfg (.bytes b) cart
  else .refused .badConfiguration

/-- `init(bootImage, rom)` (70_reset_and_hazards.md R200); the cartridge builds itself from the ROM image by its own
rules (20_memory.md R70; log 4). -/
def init (cfg : Config) (img : BootImage) (rom : List Byte) : Host.Outcome State Fault Refusal :=
  initFrom cfg img (Config.cartInit rom)

end Sys2Proof.Machine
end

