-- ==== Sys2Proof/Machine/Session.lean ====
section
/-! DEFINITION. The host's view of the block (60_exceptions.md R191): whether a state exists, the refusal mark that no
later command clears (R182), and the error the last init returned (R181). `step` answers a refusal by its outcome, and a
run stops there; a session records it and goes on (log 3, log 17). -/

namespace Sys2Proof.Machine

/-- A session of the host with the block. -/
structure Session where
  /-- The block's state; none before a successful init and after init returned an error (60_exceptions.md R182). -/
  block       : Option State
  /-- The first refusal the session met; never cleared (60_exceptions.md R182). -/
  refusalMark : Option Refusal
  /-- What the last init returned instead of a state, if it failed (60_exceptions.md R181). -/
  initError   : Option Fault
  deriving DecidableEq, Repr

/-- Before any init: no state exists (70_reset_and_hazards.md R206). -/
def Session.start : Session := { block := none, refusalMark := none, initError := none }

/-- Records a refusal: an earlier mark stays, and no state of the block changes (60_exceptions.md R182). -/
def Session.refuse (x : Session) (r : Refusal) : Session :=
  { x with refusalMark := x.refusalMark.or (some r) }

/-- What an operation of the block leaves in the session. -/
def Session.settle (x : Session) : Host.Outcome State Fault Refusal → Session
  | .next s => { x with block := some s, initError := none }
  | .fault f => { x with block := none, initError := some f }
  | .refused r => x.refuse r

/-- init, and reset: the state before, if any, is discarded and a new one is built (70_reset_and_hazards.md R200, R205;
60_exceptions.md R190). -/
def Session.init (x : Session) (cfg : Config) (img : BootImage) (rom : List Byte) : Session :=
  Session.settle { x with block := none, initError := none } (Sys2Proof.Machine.init cfg img rom)

/-- One command word from the host: refused when no state exists, else run whole (60_exceptions.md R182, R191). -/
def Session.issue (x : Session) (w : CmdWord) : Session :=
  match x.block with
  | none => x.refuse .noState
  | some s => x.settle (runWord w s)

/-- Several command words, in the order the host issues them (20_memory.md R80). -/
def Session.issueAll : Session → List CmdWord → Session
  | x, [] => x
  | x, w :: ws => Session.issueAll (x.issue w) ws

/-- The host observes `dma_busy` at any point between commands (10_state.md R32); nothing without a state. -/
def Session.dmaBusy (x : Session) : Option Bool := x.block.map State.dmaBusy

/-- The host observes the response port (30_encoding.md R92). -/
def Session.response (x : Session) : Option Byte := x.block.bind State.response

end Sys2Proof.Machine
end

