-- ==== Sys2Proof/Safety.lean ====
section
/-! DEFINITION. What every command keeps, in the terms the statements use. -/

namespace Sys2Proof.Machine

/-- The two aliases of working RAM hold the same byte: for every a in 0xC000..0xDDFF, `AS[a] == AS[a + 0x2000]`
(10_state.md R36). -/
def EchoCoherent (s : State) : Prop :=
  ∀ a : Addr, inEchoedRam a → s.byteAt a = s.byteAt (echoUp a)

/-- The bytes no write reaches, 0x0000..0x8000 and 0xA000..0xBFFF, hold their reset value (10_state.md R35, R40). -/
def ShadowUntouched (s : State) : Prop :=
  ∀ a : Addr, inRomWrite a ∨ inRamWindow a → s.byteAt a = 0x00

/-- Everything but AddressSpace and the response port is as before: what a command that stores to AddressSpace leaves
alone. -/
def SameOutsideMemory (s t : State) : Prop :=
  t.cfg = s.cfg ∧ t.ov = s.ov ∧ t.dma = s.dma ∧ t.cart = s.cart ∧ t.commands = s.commands

/-- The words that spell no command, as 30_encoding.md R95 lists them. -/
abbrev SpellsNoCommand (w : CmdWord) : Prop :=
  8 ≤ (opField w).toNat ∨
  rsvField w ≠ 0 ∨
  (opField w = 0x0 ∧ (addrField w ≠ 0 ∨ dataField w ≠ 0)) ∨
  ((opField w = 0x1 ∨ opField w = 0x7) ∧ dataField w ≠ 0) ∨
  (3 ≤ (opField w).toNat ∧ (opField w).toNat ≤ 6 ∧ (addrField w ≠ 0 ∨ 4 < (dataField w).toNat))

/-- What holds of the block between any two commands. -/
structure Inv (s : State) : Prop where
  /-- The register addresses meet 00_scope.md R5. -/
  config : configValid s.cfg
  /-- AddressSpace is in canonical form. -/
  memory : s.mem.wf Config.spaceSize
  /-- The overlay is in canonical form. -/
  overlay : s.ov.wf Config.overlaySize
  /-- The echo invariant (10_state.md R36). -/
  echo : EchoCoherent s
  /-- The shadowed bytes keep their reset value (10_state.md R35). -/
  shadow : ShadowUntouched s
  /-- `elapsedCycles` holds 0..159 between operations (10_state.md R31). -/
  count : s.dma.elapsed.toNat < Config.busyWindow
  /-- It holds 0 whenever `active` is false (10_state.md R31). -/
  idle : s.dma.active = false → s.dma.elapsed = 0

end Sys2Proof.Machine
end

