-- ==== Sys2Proof/Certificates/Slice0/Obligations.lean ====
section
/-! DEFINITION. The statements for the provers. Where one says that the response port holds nothing after a command without
a result, that clause is the model's choice (log 2); where one runs words from `commands`, the list is the model's command
port (log 1). A premise `s.mem.wf` or `configValid s.cfg` is a clause of the invariant `Inv`. -/

open Sys2Proof Sys2Proof.Machine Host

/-- The encoding is the spec's own decision D11; which reason names a refused word is the model's choice (log 15). -/
def Obligations.SpecWordsDecodeToTheirCommands : Prop :=
  decode 0x00000000 = .ok .step ∧
  decode 0x10C00000 = .ok (.read 0xC000) ∧
  decode 0x20C0005A = .ok (.write 0xC000 0x5A) ∧
  decode 0x30000004 = .ok (.ietest 4) ∧
  decode 0x40000003 = .ok (.iftest 3) ∧
  decode 0x50000002 = .ok (.ifset 2) ∧
  decode 0x60000001 = .ok (.ifclr 1) ∧
  decode 0x70C10000 = .ok (.dma 0xC100) ∧
  decode 0x80000000 = .error (.reservedOpcode 0x8) ∧
  decode 0x2F000000 = .error (.reservedField 0xF) ∧
  decode 0x10C00001 = .error (.dataNotZero 0x01) ∧
  decode 0x50000005 = .error (.bitIndexAboveFour 5)

/-- Decode and encode agree (the encoding is the spec's own decision D11). -/
def Obligations.DecodeOfEncodedCommand : Prop :=
  ∀ i : Instr, i.wf → decode (encode i) = .ok i

/-- Every bit of an accepted word counts (the encoding is the spec's own decision D11). -/
def Obligations.EncodeOfDecodedWord : Prop :=
  ∀ (w : CmdWord) (i : Instr), decode w = .ok i → i.wf ∧ encode i = w

/-- The opcode map as match and mask (the spec's own decisions D11 and D12; the disjointness is its own derivation). -/
def Obligations.DecoderAcceptsExactlyTheOpcodeTable : Prop :=
  (∀ w : CmdWord, (∃ i, decode w = .ok i) ↔ ∃ r ∈ opcodeRows, r.spells w) ∧
  (∀ (w : CmdWord) (i : Instr), decode w = .ok i → ∃ r ∈ opcodeRows, r.spells w ∧ r.mnemonic = i.mnemonic) ∧
  (∀ (w : CmdWord), ∀ r ∈ opcodeRows, ∀ r' ∈ opcodeRows, r.spells w → r'.spells w → r = r')

/-- Reserved and malformed words are refused by the spec's own decisions D10 and D12; that the refusal is the step's outcome is log 3. -/
def Obligations.StepRefusesExactlyTheWordsThatSpellNoCommand : Prop :=
  ∀ (s : State) (w : CmdWord) (ws : List CmdWord), s.commands = w :: ws →
    ((∃ r, step s = .refused r) ↔ SpellsNoCommand w)

/-- The command port is the model's own field (log 1). -/
def Obligations.StepRunsTheDecodedCommand : Prop :=
  ∀ (s : State) (w : CmdWord) (ws : List CmdWord) (i : Instr),
    s.commands = w :: ws → decode w = .ok i → step s = exec i { s with commands := ws }

/-- The model's choice for an empty command port (log 1). -/
def Obligations.IdleStepChangesNothing : Prop :=
  ∀ s : State, s.commands = [] → step s = .next s

/-- 20_memory.md R55, R57. The result stands on the response port, the spec's decision D11 (log 2). -/
def Obligations.ReadAnswersByTheOrderedReadRules : Prop :=
  ∀ (s : State) (a : Addr), ∃ r : Byte,
    exec (.read a) s = .next { s with response := some r } ∧
    (a < 0x0100 → s.byteAt s.cfg.bootCtrlAddr = 0x00 → r = s.overlayAt (a.setWidth 8)) ∧
    (a < 0x0100 → s.byteAt s.cfg.bootCtrlAddr ≠ 0x00 → r = Config.cartRead s.cart a) ∧
    (0x0100 ≤ a → a < 0x8000 → r = Config.cartRead s.cart a) ∧
    (0xA000 ≤ a → a ≤ 0xBFFF → r = Config.cartRead s.cart a) ∧
    (0x8000 ≤ a → a ≤ 0x9FFF → r = s.byteAt a) ∧
    (0xC000 ≤ a → r = s.byteAt a)

/-- The overlay switch acts on the next command (the spec's derivation in 70_reset_and_hazards.md section 3). -/
def Obligations.ReadAfterBootOffAnswersFromTheCartridge : Prop :=
  ∀ (s : State) (a : Addr) (v : Byte), configValid s.cfg → s.mem.wf Config.spaceSize → v ≠ 0x00 → a < 0x0100 →
    ∃ t, exec (.write s.cfg.bootCtrlAddr v) s = .next t ∧
      exec (.read a) t = .next { t with response := some (Config.cartRead s.cart a) }

/-- Steps WR1 and WR2; the empty response port is log 2. -/
def Obligations.WriteToCartridgeWindowGoesToTheCartridge : Prop :=
  ∀ (s : State) (a : Addr) (v : Byte), a ≤ 0x8000 ∨ (0xA000 ≤ a ∧ a ≤ 0xBFFF) →
    exec (.write a v) s = .next { s with cart := Config.cartWrite s.cart a v, response := none }

/-- 20_memory.md R61, 70_reset_and_hazards.md R213. -/
def Obligations.WriteToFirstVideoByteIsLost : Prop :=
  ∀ (s : State) (v : Byte), ∃ t, exec (.write 0x8000 v) s = .next t ∧
    t.cart = Config.cartWrite s.cart 0x8000 v ∧
    (∀ b, t.byteAt b = s.byteAt b) ∧
    exec (.read 0x8000) t = .next { t with response := some (s.byteAt 0x8000) }

/-- Steps WR3 and WR5. -/
def Obligations.WriteStoresBothAliasesOfWorkingRam : Prop :=
  ∀ (s : State) (a : Addr) (v : Byte), s.mem.wf Config.spaceSize →
    (0xC000 ≤ a → a ≤ 0xDDFF → ∃ t, exec (.write a v) s = .next t ∧
      t.byteAt a = v ∧ t.byteAt (a + 0x2000) = v ∧
      (∀ b, b ≠ a → b ≠ a + 0x2000 → t.byteAt b = s.byteAt b) ∧ SameOutsideMemory s t) ∧
    (0xE000 ≤ a → a ≤ 0xFDFF → ∃ t, exec (.write a v) s = .next t ∧
      t.byteAt a = v ∧ t.byteAt (a - 0x2000) = v ∧
      (∀ b, b ≠ a → b ≠ a - 0x2000 → t.byteAt b = s.byteAt b) ∧ SameOutsideMemory s t)

/-- The source's testable property on echo RAM. -/
def Obligations.WriteThroughOneAliasReadsBackThroughBoth : Prop :=
  ∀ (s : State) (a : Addr) (v : Byte), s.mem.wf Config.spaceSize → 0xC000 ≤ a → a ≤ 0xDDFF →
    (∃ t, exec (.write a v) s = .next t ∧
      exec (.read a) t = .next { t with response := some v } ∧
      exec (.read (a + 0x2000)) t = .next { t with response := some v }) ∧
    (∃ t, exec (.write (a + 0x2000) v) s = .next t ∧
      exec (.read a) t = .next { t with response := some v } ∧
      exec (.read (a + 0x2000)) t = .next { t with response := some v })

/-- 20_memory.md R64. -/
def Obligations.WriteToRamTailStoresOneByte : Prop :=
  ∀ (s : State) (a : Addr) (v : Byte), s.mem.wf Config.spaceSize → 0xDE00 ≤ a → a ≤ 0xDFFF →
    ∃ t, exec (.write a v) s = .next t ∧ t.byteAt a = v ∧
      (∀ b, b ≠ a → t.byteAt b = s.byteAt b) ∧ SameOutsideMemory s t

/-- Step WR7; that the DMA-trigger register is a plain byte is the spec's decision D8 (log 11). -/
def Obligations.WriteToPlainByteStoresItWhole : Prop :=
  ∀ (s : State) (a : Addr) (v : Byte), s.mem.wf Config.spaceSize →
    (0x8001 ≤ a ∧ a ≤ 0x9FFF) ∨ 0xFE00 ≤ a → a ≠ s.cfg.divAddr → a ≠ s.cfg.bootCtrlAddr →
    ∃ t, exec (.write a v) s = .next t ∧ t.byteAt a = v ∧
      (∀ b, b ≠ a → t.byteAt b = s.byteAt b) ∧ SameOutsideMemory s t ∧
      exec (.read a) t = .next { t with response := some v }

/-- 20_memory.md R63. -/
def Obligations.WriteToDividerStoresZero : Prop :=
  ∀ (s : State) (v : Byte), configValid s.cfg → s.mem.wf Config.spaceSize →
    ∃ t, exec (.write s.cfg.divAddr v) s = .next t ∧ t.byteAt s.cfg.divAddr = 0x00 ∧
      (∀ b, b ≠ s.cfg.divAddr → t.byteAt b = s.byteAt b) ∧ SameOutsideMemory s t ∧
      exec (.read s.cfg.divAddr) t = .next { t with response := some 0x00 }

/-- Step WR6B is the spec's own decision D4 (log 8). -/
def Obligations.BootControlWriteIgnoresZeroOntoNonzero : Prop :=
  ∀ (s : State) (v : Byte), configValid s.cfg → s.mem.wf Config.spaceSize →
    (s.byteAt s.cfg.bootCtrlAddr ≠ 0x00 ∧ v = 0x00 →
      exec (.write s.cfg.bootCtrlAddr v) s = .next { s with response := none }) ∧
    (¬ (s.byteAt s.cfg.bootCtrlAddr ≠ 0x00 ∧ v = 0x00) →
      ∃ t, exec (.write s.cfg.bootCtrlAddr v) s = .next t ∧ t.byteAt s.cfg.bootCtrlAddr = v ∧
        (∀ b, b ≠ s.cfg.bootCtrlAddr → t.byteAt b = s.byteAt b) ∧ SameOutsideMemory s t)

/-- The table of side effects (the spec's own derivation); the response clause is log 2. -/
def Obligations.WriteChangesOnlyItsByteAndItsMirror : Prop :=
  ∀ (s : State) (a : Addr) (v : Byte), ∃ t, exec (.write a v) s = .next t ∧
    (∀ b, b ≠ a → (inEchoedRam a → b ≠ echoUp a) → (inEcho a → b ≠ echoDown a) → t.byteAt b = s.byteAt b) ∧
    (inRomWrite a ∨ inRamWindow a → ∀ b, t.byteAt b = s.byteAt b) ∧
    (¬ (inRomWrite a ∨ inRamWindow a) → t.cart = s.cart) ∧
    t.cfg = s.cfg ∧ t.ov = s.ov ∧ t.dma = s.dma ∧ t.commands = s.commands ∧ t.response = none

/-- A derived corner case of WRITE. -/
def Obligations.WritingTheSameByteTwiceIsWritingItOnce : Prop :=
  ∀ (s : State) (a : Addr) (v : Byte), s.mem.wf Config.spaceSize →
    ∃ t u, exec (.write a v) s = .next t ∧ exec (.write a v) t = .next u ∧ u.mem = t.mem

/-- IETEST; the byte on the response port is the spec's decision D11 (log 2). -/
def Obligations.IetestAnswersItsBit : Prop :=
  ∀ (s : State) (bit : Nat), bit ≤ 4 →
    exec (.ietest bit) s =
      .next { s with response := some (if (s.byteAt s.cfg.ieAddr).getLsbD bit then 0x01 else 0x00) }

/-- IFTEST; the byte on the response port is the spec's decision D11 (log 2). -/
def Obligations.IftestAnswersItsBit : Prop :=
  ∀ (s : State) (bit : Nat), bit ≤ 4 →
    exec (.iftest bit) s =
      .next { s with response := some (if (s.byteAt s.cfg.ifAddr).getLsbD bit then 0x01 else 0x00) }

/-- IFSET; the response clause is log 2. -/
def Obligations.IfsetChangesOneBitOfIf : Prop :=
  ∀ (s : State) (bit : Nat), bit ≤ 4 → s.mem.wf Config.spaceSize →
    ∃ t, exec (.ifset bit) s = .next t ∧
      (∀ j, j < 8 → (t.byteAt s.cfg.ifAddr).getLsbD j = (decide (j = bit) || (s.byteAt s.cfg.ifAddr).getLsbD j)) ∧
      (∀ b, b ≠ s.cfg.ifAddr → t.byteAt b = s.byteAt b) ∧ SameOutsideMemory s t ∧ t.response = none

/-- IFCLR; the response clause is log 2. -/
def Obligations.IfclrChangesOneBitOfIf : Prop :=
  ∀ (s : State) (bit : Nat), bit ≤ 4 → s.mem.wf Config.spaceSize →
    ∃ t, exec (.ifclr bit) s = .next t ∧
      (∀ j, j < 8 → (t.byteAt s.cfg.ifAddr).getLsbD j = (!decide (j = bit) && (s.byteAt s.cfg.ifAddr).getLsbD j)) ∧
      (∀ b, b ≠ s.cfg.ifAddr → t.byteAt b = s.byteAt b) ∧ SameOutsideMemory s t ∧ t.response = none

/-- The laws of the accessors (the spec's own derivation). -/
def Obligations.SetOrClearThenTestAnswers : Prop :=
  ∀ (s : State) (bit : Nat), bit ≤ 4 → configValid s.cfg → s.mem.wf Config.spaceSize →
    (∃ t, exec (.ifset bit) s = .next t ∧ exec (.iftest bit) t = .next { t with response := some 0x01 } ∧
      exec (.ifset bit) t = .next t ∧ t.byteAt s.cfg.ieAddr = s.byteAt s.cfg.ieAddr) ∧
    (∃ t, exec (.ifclr bit) s = .next t ∧ exec (.iftest bit) t = .next { t with response := some 0x00 } ∧
      exec (.ifclr bit) t = .next t ∧ t.byteAt s.cfg.ieAddr = s.byteAt s.cfg.ieAddr)

/-- The spec's own derivation. -/
def Obligations.AccessorsAgreeWithTheDecoders : Prop :=
  ∀ (s : State) (v : Byte), configValid s.cfg →
    memRead s s.cfg.ieAddr = s.ieReg ∧ memRead s s.cfg.ifAddr = s.ifReg ∧
    memWrite s s.cfg.ifAddr v = s.setIfReg v

/-- The spec's own decision D10 (log 14). -/
def Obligations.BitIndexAboveFourIsRefused : Prop :=
  ∀ (s : State) (bit : Nat), 4 < bit →
    exec (.ietest bit) s = .refused (.noSuchCommand (.bitIndexAboveFour bit)) ∧
    exec (.iftest bit) s = .refused (.noSuchCommand (.bitIndexAboveFour bit)) ∧
    exec (.ifset bit) s = .refused (.noSuchCommand (.bitIndexAboveFour bit)) ∧
    exec (.ifclr bit) s = .refused (.noSuchCommand (.bitIndexAboveFour bit))

/-- The spec's own derivation. -/
def Obligations.OnlyAccessorsAndWritesChangeIf : Prop :=
  ∀ (i : Instr) (s t : State), configValid s.cfg → exec i s = .next t →
    (∀ k, i ≠ .ifset k) → (∀ k, i ≠ .ifclr k) → (∀ v, i ≠ .write s.cfg.ifAddr v) →
    t.byteAt s.cfg.ifAddr = s.byteAt s.cfg.ifAddr

/-- 41_interrupt_regs.md: the only way to set or clear an IE bit is a WRITE of the whole byte. -/
def Obligations.OnlyAWriteChangesIe : Prop :=
  ∀ (i : Instr) (s t : State), configValid s.cfg → exec i s = .next t →
    (∀ v, i ≠ .write s.cfg.ieAddr v) → t.byteAt s.cfg.ieAddr = s.byteAt s.cfg.ieAddr

/-- The wrap, the order and the direct writes are the spec's own decisions D5 to D7 (log 9, log 10); the response clause is log 2. -/
def Obligations.DmaCopiesTheBytesReadAtTheCall : Prop :=
  ∀ (s : State) (start : Addr), s.mem.wf Config.spaceSize →
    ∃ t, exec (.dma start) s = .next t ∧
      (∀ i, i < 160 → t.byteAt (0xFE00 + BitVec.ofNat 16 i) = memRead s (start + BitVec.ofNat 16 i)) ∧
      (∀ b, b < 0xFE00 ∨ 0xFE9F < b → t.byteAt b = s.byteAt b) ∧
      t.dma = { active := true, elapsed := 0 } ∧
      t.cfg = s.cfg ∧ t.ov = s.ov ∧ t.cart = s.cart ∧ t.commands = s.commands ∧ t.response = none

/-- The copy is complete when DMA returns; overlap and wrap are the spec's decisions D5 and D6 (log 9, log 10). -/
def Obligations.SpriteTableReadsBackAtOnceAfterDma : Prop :=
  ∀ (s : State) (start : Addr), s.mem.wf Config.spaceSize →
    ∃ t, exec (.dma start) s = .next t ∧ ∀ i, i < 160 → ∃ r,
      exec (.read (start + BitVec.ofNat 16 i)) s = .next { s with response := some r } ∧
      exec (.read (0xFE00 + BitVec.ofNat 16 i)) t = .next { t with response := some r }

/-- The spec's own derivation about its decision D7 (log 10). -/
def Obligations.DmaCopyEqualsDecoderWrites : Prop :=
  ∀ (s : State) (start : Addr), configValid s.cfg →
    (List.range 160).foldl
      (fun u i => memWrite u (0xFE00 + BitVec.ofNat 16 i) (memRead s (start + BitVec.ofNat 16 i))) s =
    dmaCopy s start

/-- A derived corner case; the response clause is log 2. -/
def Obligations.DmaOntoItselfLeavesTheSpriteTable : Prop :=
  ∀ s : State, s.mem.wf Config.spaceSize →
    exec (.dma 0xFE00) s = .next { s with dma := { active := true, elapsed := 0 }, response := none }

/-- STEP, with its encoding (the spec's own decision D11); that the response port holds nothing after it is the model's
choice, log 2. -/
def Obligations.StepAdvancesTheDmaCount : Prop :=
  decode 0x00000000 = .ok .step ∧
  (∀ w : CmdWord, opField w = 0 → w ≠ 0x00000000 → ∃ e, decode w = .error e) ∧
  (∀ s : State,
    (s.dma.active = false → exec .step s = .next { s with response := none }) ∧
    (s.dma.active = true → s.dma.elapsed.toNat + 1 < 160 →
      exec .step s =
        .next { s with dma := { active := true, elapsed := s.dma.elapsed + 1 }, response := none }) ∧
    (s.dma.active = true → s.dma.elapsed.toNat + 1 = 160 →
      exec .step s = .next { s with dma := { active := false, elapsed := 0 }, response := none }))

/-- The source's testable property of the busy window, over the machine's own steps (the waiting words are
the model's command port, log 1; that the response port holds nothing at the end is the model's choice, log 2). -/
def Obligations.BusyWindowLastsOneHundredSixtySteps : Prop :=
  ∀ (s : State) (start : Addr) (rest : List CmdWord),
    s.commands = List.replicate 160 (0x00000000 : CmdWord) ++ rest →
    ∃ t, exec (.dma start) s = .next t ∧
      (∀ k, k < 160 → ∃ u, Sys2Proof.core.run k t = .next u ∧
        u.dma = { active := true, elapsed := BitVec.ofNat 8 k } ∧
        u.commands = List.replicate (160 - k) (0x00000000 : CmdWord) ++ rest) ∧
      Sys2Proof.core.run 160 t =
        .next { t with dma := { active := false, elapsed := 0 }, commands := rest, response := none }

/-- Only STEP marks time; only DMA restarts the window. -/
def Obligations.OnlyStepAndDmaChangeTheDmaState : Prop :=
  ∀ (i : Instr) (s t : State), exec i s = .next t → i ≠ .step → (∀ a, i ≠ .dma a) →
    t.dma = s.dma ∧ t.dmaBusy = s.dmaBusy

/-- 42_dma.md R167. -/
def Obligations.BusyLocksNothing : Prop :=
  ∀ (s : State) (d : Dma),
    (∀ (i : Instr) (t : State), i ≠ .step → (∀ a, i ≠ .dma a) → exec i s = .next t →
      exec i { s with dma := d } = .next { t with dma := d }) ∧
    (∀ (i : Instr) (r : Refusal), exec i s = .refused r → exec i { s with dma := d } = .refused r) ∧
    (∀ start : Addr, exec (.dma start) { s with dma := d } = exec (.dma start) s)

/-- The spec's own derivation. -/
def Obligations.OrderOfDmaAndStepIsVisible : Prop :=
  ∀ (s : State) (start : Addr),
    (∃ t u, exec (.dma start) s = .next t ∧ exec .step t = .next u ∧ u.dma = { active := true, elapsed := 1 }) ∧
    (∃ t u, exec .step s = .next t ∧ exec (.dma start) t = .next u ∧ u.dma = { active := true, elapsed := 0 })

/-- The no-image reset at the default addresses (log 5, log 16). -/
def Obligations.ResetMeetsTheInvariant : Prop :=
  Inv State.reset

/-- Initial bytes and pad are the spec's decisions D2 and D3 (log 6, log 7). -/
def Obligations.InitMeetsTheInvariant : Prop :=
  ∀ (cfg : Config) (img : BootImage) (cart : Except CartError CartState) (t : State),
    initFrom cfg img cart = .next t → Inv t

/-- The echo invariant and the other whole-state properties, step by step. -/
def Obligations.EveryStepKeepsTheInvariant : Prop :=
  ∀ s t : State, Inv s → step s = .next t → Inv t

/-- 10_state.md R25; the write rule that keeps it is the spec's decision D4 (log 8). -/
def Obligations.BootSwitchIsOneWay : Prop :=
  (∀ s : State, s.overlayActive = true ↔ s.byteAt s.cfg.bootCtrlAddr = 0x00) ∧
  (∀ (k : Nat) (s t : State), Inv s → s.byteAt s.cfg.bootCtrlAddr ≠ 0x00 → Sys2Proof.core.run k s = .next t →
    t.byteAt t.cfg.bootCtrlAddr ≠ 0x00 ∧ t.overlayActive = false)

/-- The overlay is read-only after initialisation (the spec's own derivation). -/
def Obligations.OverlayIsNeverWritten : Prop :=
  ∀ (k : Nat) (s t : State), Sys2Proof.core.run k s = .next t → t.ov = s.ov ∧ t.cfg = s.cfg

/-- The overlay can never be seen again after the switch (rests on the spec's decision D4, log 8). -/
def Obligations.OverlayIsUnobservableAfterTheSwitch : Prop :=
  ∀ (k : Nat) (s t : State) (o : Memory), Inv s → s.byteAt s.cfg.bootCtrlAddr ≠ 0x00 →
    Sys2Proof.core.run k s = .next t → Sys2Proof.core.run k { s with ov := o } = .next { t with ov := o }

/-- 60_exceptions.md R180; a trap does not exist in the model at all. -/
def Obligations.NoCommandFaults : Prop :=
  (∀ (i : Instr) (s : State) (f : Fault), exec i s ≠ .fault f) ∧
  (∀ (s : State) (f : Fault), step s ≠ .fault f)

/-- That an index above 4 is refused is the spec's decision D10 (log 14). -/
def Obligations.AdmittedCommandsComplete : Prop :=
  ∀ (i : Instr) (s : State), (∃ t, exec i s = .next t) ↔ i.wf

/-- 10_state.md section 7, in part the spec's own derivation. -/
def Obligations.ShadowedBytesAreNeverObservedOrWritten : Prop :=
  (∀ (s : State) (a b : Addr) (v : Byte), configValid s.cfg → a < 0x8000 ∨ (0xA000 ≤ a ∧ a ≤ 0xBFFF) →
    memRead (s.setByte a v) b = memRead s b) ∧
  (∀ (i : Instr) (s t : State) (a : Addr), configValid s.cfg → a ≤ 0x8000 ∨ (0xA000 ≤ a ∧ a ≤ 0xBFFF) →
    exec i s = .next t → t.byteAt a = s.byteAt a)

/-- The order of the two errors is the spec's decision D16; that the configuration is checked first is the model's choice (log 23). -/
def Obligations.InitFailsOnlyByItsTwoErrors : Prop :=
  (∀ cfg img cart, configValid cfg = false → initFrom cfg img cart = .refused .badConfiguration) ∧
  (∀ cfg cart, configValid cfg → initFrom cfg .unreadable cart = .fault (.initializationError .bootImage)) ∧
  (∀ cfg img e, configValid cfg → img ≠ .unreadable → initFrom cfg img (.error e) = .fault (.cartridgeError e)) ∧
  (∀ cfg img c, configValid cfg → img ≠ .unreadable → ∃ t, initFrom cfg img (.ok c) = .next t)

/-- 10_state.md R41, R42. -/
def Obligations.InitSetsBootControlAndDma : Prop :=
  ∀ (cfg : Config) (c : CartState), configValid cfg →
    (∃ t, initFrom cfg .none (.ok c) = .next t ∧ t.byteAt cfg.bootCtrlAddr = 0x01 ∧
      t.dma = { active := false, elapsed := 0 } ∧ t.dmaBusy = false) ∧
    (∀ b : List Byte, ∃ t, initFrom cfg (.bytes b) (.ok c) = .next t ∧ t.byteAt cfg.bootCtrlAddr = 0x00 ∧
      t.dma = { active := false, elapsed := 0 } ∧ t.dmaBusy = false)

/-- The initial bytes and the pad are the spec's own decisions D2 and D3 (log 6, log 7). -/
def Obligations.InitClearsMemoryAndLoadsTheOverlay : Prop :=
  ∀ (cfg : Config) (c : CartState), configValid cfg →
    (∃ t, initFrom cfg .none (.ok c) = .next t ∧ (∀ a, a ≠ cfg.bootCtrlAddr → t.byteAt a = 0x00) ∧
      (∀ i, t.overlayAt i = 0x00) ∧ t.cart = c ∧ t.cfg = cfg) ∧
    (∀ b : List Byte, ∃ t, initFrom cfg (.bytes b) (.ok c) = .next t ∧
      (∀ a, a ≠ cfg.bootCtrlAddr → t.byteAt a = 0x00) ∧
      (∀ i : Byte, t.overlayAt i = b.getD i.toNat 0x00) ∧ t.cart = c ∧ t.cfg = cfg)

/-- 70_reset_and_hazards.md R201. -/
def Obligations.FirstReadWithoutBootImageIsTheCartridges : Prop :=
  ∀ (cfg : Config) (c : CartState), configValid cfg →
    ∃ t, initFrom cfg .none (.ok c) = .next t ∧ t.byteAt cfg.bootCtrlAddr = 0x01 ∧
      exec (.read 0x0000) t = .next { t with response := some (Config.cartRead c 0x0000) }

/-- 70_reset_and_hazards.md R202. -/
def Obligations.FirstReadWithBootImageIsTheImages : Prop :=
  ∀ (cfg : Config) (c : CartState) (b : List Byte), configValid cfg →
    ∃ t, initFrom cfg (.bytes b) (.ok c) = .next t ∧ t.byteAt cfg.bootCtrlAddr = 0x00 ∧
      exec (.read 0x0000) t = .next { t with response := some (b.headD 0x00) }

/-- The model's choice of the reset state (log 4, log 5, log 16). -/
def Obligations.ResetIsInitWithoutABootImage : Prop :=
  initFrom Config.defaults .none (.ok Config.resetCart) = .next State.reset

/-- The host's record of a refusal (log 3, log 17). -/
def Obligations.RefusalMarkIsStickyAndStateKept : Prop :=
  (∀ (x : Session) (w : CmdWord), x.block = none →
    (x.issue w).block = none ∧ (x.issue w).refusalMark = some (x.refusalMark.getD .noState)) ∧
  (∀ (x : Session) (s : State) (w : CmdWord), x.block = some s → SpellsNoCommand w →
    (x.issue w).block = some s ∧ (x.issue w).refusalMark.isSome) ∧
  (∀ (x : Session) (s : State) (w : CmdWord), x.block = some s → ¬ SpellsNoCommand w →
    (x.issue w).block.isSome ∧ (x.issue w).refusalMark = x.refusalMark) ∧
  (∀ (x : Session) (ws : List CmdWord) (r : Refusal), x.refusalMark = some r →
    (x.issueAll ws).refusalMark = some r)

/-- The assembler is the spec's own decision D13 (log 20). -/
def Obligations.PseudoInstructionsExpand : Prop :=
  AsmLine.assemble Config.defaults .divreset = some [0x20FF0400] ∧
  AsmLine.assemble Config.defaults .bootoff = some [0x20FF5001] ∧
  (∀ v : Nat, v ≤ 0xFF →
    AsmLine.assemble Config.defaults (.iewrite v) = some [0x20FFFF00 + BitVec.ofNat 32 v] ∧
    AsmLine.assemble Config.defaults (.ifwrite v) = some [0x20FF0F00 + BitVec.ofNat 32 v]) ∧
  (∀ cfg : Config,
    AsmLine.expand cfg .divreset = some [.write cfg.divAddr 0x00] ∧
    AsmLine.expand cfg .bootoff = some [.write cfg.bootCtrlAddr 0x01] ∧
    (∀ v : Nat, v ≤ 0xFF →
      AsmLine.expand cfg (.iewrite v) = some [.write cfg.ieAddr (BitVec.ofNat 8 v)] ∧
      AsmLine.expand cfg (.ifwrite v) = some [.write cfg.ifAddr (BitVec.ofNat 8 v)]) ∧
    (∀ v : Nat, 0xFF < v →
      AsmLine.assemble cfg (.iewrite v) = none ∧ AsmLine.assemble cfg (.ifwrite v) = none) ∧
    AsmLine.assemble cfg .dmawait = some (List.replicate 160 0x00000000) ∧
    (∀ n : Nat, 1 ≤ n → AsmLine.assemble cfg (.stepn n) = some (List.replicate n 0x00000000)) ∧
    AsmLine.assemble cfg (.stepn 0) = none)

/-- The assembler is the spec's own decision D13 (log 20). -/
def Obligations.AssembledWordsAreCommands : Prop :=
  (∀ (cfg : Config) (l : AsmLine) (ws : List CmdWord), l.assemble cfg = some ws →
    ∀ w ∈ ws, ∃ i, decode w = .ok i) ∧
  (∀ (cfg : Config) (a : Nat), 0xFFFF < a →
    AsmLine.assemble cfg (.read a) = none ∧ AsmLine.assemble cfg (.dma a) = none ∧
    ∀ v, AsmLine.assemble cfg (.write a v) = none) ∧
  (∀ (cfg : Config) (v : Nat), 0xFF < v →
    AsmLine.assemble cfg (.iewrite v) = none ∧ AsmLine.assemble cfg (.ifwrite v) = none ∧
    ∀ a, AsmLine.assemble cfg (.write a v) = none) ∧
  (∀ (cfg : Config) (b : Nat), 4 < b →
    AsmLine.assemble cfg (.ietest b) = none ∧ AsmLine.assemble cfg (.iftest b) = none ∧
    AsmLine.assemble cfg (.ifset b) = none ∧ AsmLine.assemble cfg (.ifclr b) = none)

/-- The assembler is the spec's own decision D13, the words its own derivation (log 20). -/
def Obligations.InRangeLinesAssembleToTheirFields : Prop :=
  ∀ cfg : Config,
    AsmLine.assemble cfg .step = some [joinFields 0x0 0 0 0] ∧
    (∀ a : Nat, a ≤ 0xFFFF →
      AsmLine.assemble cfg (.read a) = some [joinFields 0x1 0 (BitVec.ofNat 16 a) 0] ∧
      AsmLine.assemble cfg (.dma a) = some [joinFields 0x7 0 (BitVec.ofNat 16 a) 0] ∧
      ∀ v : Nat, v ≤ 0xFF →
        AsmLine.assemble cfg (.write a v) = some [joinFields 0x2 0 (BitVec.ofNat 16 a) (BitVec.ofNat 8 v)]) ∧
    (∀ b : Nat, b ≤ 4 →
      AsmLine.assemble cfg (.ietest b) = some [joinFields 0x3 0 0 (BitVec.ofNat 8 b)] ∧
      AsmLine.assemble cfg (.iftest b) = some [joinFields 0x4 0 0 (BitVec.ofNat 8 b)] ∧
      AsmLine.assemble cfg (.ifset b) = some [joinFields 0x5 0 0 (BitVec.ofNat 8 b)] ∧
      AsmLine.assemble cfg (.ifclr b) = some [joinFields 0x6 0 0 (BitVec.ofNat 8 b)])
end

