-- ==== Sys2Proof/Laws/Assembler.lean ====
section
/-! SUPPORT. The operands of a line in and out of range (30_encoding.md R97). -/

namespace Sys2Proof.Machine

theorem asmAddr_inRange {a : Nat} (h : a ≤ 0xFFFF) : asmAddr a = some (BitVec.ofNat 16 a) := if_pos h
theorem asmAddr_outOfRange {a : Nat} (h : 0xFFFF < a) : asmAddr a = none := if_neg (Nat.not_le.2 h)
theorem asmByte_inRange {v : Nat} (h : v ≤ 0xFF) : asmByte v = some (BitVec.ofNat 8 v) := if_pos h
theorem asmByte_outOfRange {v : Nat} (h : 0xFF < v) : asmByte v = none := if_neg (Nat.not_le.2 h)

theorem asmBit_inRange {b : Nat} (h : b ≤ 4) : asmBit b = some b := if_pos (decide_eq_true h)

theorem asmBit_outOfRange {b : Nat} (h : 4 < b) : asmBit b = none :=
  if_neg (by rw [bitAdmitted, decide_eq_true_eq]; omega)

end Sys2Proof.Machine
end

