-- ==== Sys2Proof/Laws/Decode.lean ====
section
/-! SUPPORT. The fields of a joined word, and a word as its fields (30_encoding.md R91). -/

namespace Sys2Proof

variable {op rsv : BitVec 4} {addr : Addr} {data : Byte} {w : CmdWord}

theorem opField_joinFields : opField (joinFields op rsv addr data) = op := by
  refine BitVec.eq_of_getLsbD_eq fun j hj => ?_
  simp only [opField, joinFields, BitVec.getLsbD_extractLsb', BitVec.getLsbD_append]
  simp [hj, show ¬28 + j < 8 by omega, show ¬28 + j - 8 < 16 by omega, show ¬28 + j - 8 - 16 < 4 by omega,
    show 28 + j - 8 - 16 - 4 = j by omega]

theorem rsvField_joinFields : rsvField (joinFields op rsv addr data) = rsv := by
  refine BitVec.eq_of_getLsbD_eq fun j hj => ?_
  simp only [rsvField, joinFields, BitVec.getLsbD_extractLsb', BitVec.getLsbD_append]
  simp [hj, show ¬24 + j < 8 by omega, show ¬24 + j - 8 < 16 by omega, show 24 + j - 8 - 16 = j by omega]

theorem addrField_joinFields : addrField (joinFields op rsv addr data) = addr := by
  refine BitVec.eq_of_getLsbD_eq fun j hj => ?_
  simp only [addrField, joinFields, BitVec.getLsbD_extractLsb', BitVec.getLsbD_append]
  simp [hj, show ¬8 + j < 8 by omega]

theorem dataField_joinFields : dataField (joinFields op rsv addr data) = data := by
  refine BitVec.eq_of_getLsbD_eq fun j hj => ?_
  simp only [dataField, joinFields, BitVec.getLsbD_extractLsb', BitVec.getLsbD_append]
  simp [hj]

/-- A word is its four fields. -/
theorem joinFields_fields : joinFields (opField w) (rsvField w) (addrField w) (dataField w) = w := by
  refine BitVec.eq_of_getLsbD_eq fun j hj => ?_
  simp only [joinFields, opField, rsvField, addrField, dataField, BitVec.getLsbD_append, BitVec.getLsbD_extractLsb']
  by_cases h1 : j < 8
  · simp [h1]
  · by_cases h2 : j - 8 < 16
    · simp [h1, h2, show 8 + (j - 8) = j by omega]
    · by_cases h3 : j - 8 - 16 < 4
      · simp [h1, h2, h3, show 24 + (j - 8 - 16) = j by omega]
      · simp [h1, h2, h3, show 28 + (j - 8 - 16 - 4) = j by omega, show j - 8 - 16 - 4 < 4 by omega]

/-- Words are equal when their fields are. -/
theorem joinFields_inj {op' rsv' : BitVec 4} {addr' : Addr} {data' : Byte} :
    joinFields op rsv addr data = joinFields op' rsv' addr' data' ↔
      op = op' ∧ rsv = rsv' ∧ addr = addr' ∧ data = data' := by
  constructor
  · intro h
    exact ⟨by rw [← opField_joinFields (op := op), h, opField_joinFields],
      by rw [← rsvField_joinFields (rsv := rsv), h, rsvField_joinFields],
      by rw [← addrField_joinFields (addr := addr), h, addrField_joinFields],
      by rw [← dataField_joinFields (data := data), h, dataField_joinFields]⟩
  · rintro ⟨rfl, rfl, rfl, rfl⟩; rfl

/-- A mask acts on the fields one by one. -/
theorem and_joinFields {op' rsv' : BitVec 4} {addr' : Addr} {data' : Byte} :
    joinFields op rsv addr data &&& joinFields op' rsv' addr' data' =
      joinFields (op &&& op') (rsv &&& rsv') (addr &&& addr') (data &&& data') := by
  refine BitVec.eq_of_getLsbD_eq fun j hj => ?_
  simp only [joinFields, BitVec.getLsbD_and, BitVec.getLsbD_append]
  split_ifs <;> rfl

theorem decode_joinFields : decode (joinFields op rsv addr data) = decodeFields op rsv addr data := by
  unfold decode
  rw [opField_joinFields, rsvField_joinFields, addrField_joinFields, dataField_joinFields]

/-- The decoder on an encoded command is the opcode map on the command's own fields. -/
theorem decode_encode_fields (i : Instr) :
    decode (encode i) = decodeFields i.opcode 0 i.addrOperand i.dataOperand := decode_joinFields

theorem requireZeroAddr_ok {k : Except DecodeError Instr} {i : Instr} :
    requireZeroAddr addr k = .ok i ↔ addr = 0 ∧ k = .ok i := by
  unfold requireZeroAddr
  by_cases h : addr = 0
  · rw [if_pos h]; exact ⟨fun e => ⟨h, e⟩, And.right⟩
  · rw [if_neg h]; exact ⟨nofun, fun e => absurd e.1 h⟩

theorem requireZeroData_ok {k : Except DecodeError Instr} {i : Instr} :
    requireZeroData data k = .ok i ↔ data = 0 ∧ k = .ok i := by
  unfold requireZeroData
  by_cases h : data = 0
  · rw [if_pos h]; exact ⟨fun e => ⟨h, e⟩, And.right⟩
  · rw [if_neg h]; exact ⟨nofun, fun e => absurd e.1 h⟩

theorem decodeBit_ok {mk : Nat → Instr} {i : Instr} :
    decodeBit addr data mk = .ok i ↔ addr = 0 ∧ data.toNat ≤ 4 ∧ mk data.toNat = i := by
  unfold decodeBit
  rw [requireZeroAddr_ok]
  by_cases h : data.toNat ≤ 4 <;> simp [bitAdmitted, h]

end Sys2Proof
end

