-- ==== Sys2Proof/Laws/Memory.lean ====
section
/-! SUPPORT. The laws of a byte store: every operation keeps the canonical form, a read after a write, and equality of
canonical stores that read alike. -/

namespace Sys2Proof.Machine.Memory

variable {size lo lo' a c base : Nat} {v w : Byte} {m m' : Memory} {vs : List Byte}

theorem wfFrom_cons :
    wfFrom size lo ((a, v) :: m) = true ↔
      lo ≤ a ∧ a < size ∧ v ≠ unlisted ∧ wfFrom size (a + 1) m = true := by
  simp [wfFrom, and_assoc]

theorem wfFrom_mono (h : wfFrom size lo m = true) (hle : lo' ≤ lo) : wfFrom size lo' m = true := by
  cases m with
  | nil => rfl
  | cons x m =>
    obtain ⟨b, w⟩ := x
    rw [wfFrom_cons] at h ⊢
    exact ⟨hle.trans h.1, h.2⟩

theorem readByte_below (h : wfFrom size lo m = true) (ha : a < lo) : readByte m a = unlisted := by
  induction m generalizing lo with
  | nil => rfl
  | cons x m ih =>
    obtain ⟨b, w⟩ := x
    rw [wfFrom_cons] at h
    have hne : a ≠ b := by omega
    simp only [readByte, if_neg hne]
    exact ih h.2.2.2 (by omega)

theorem putCell_wfFrom (h : wfFrom size (a + 1) m = true) (hlo : lo ≤ a) (ha : a < size) :
    wfFrom size lo (putCell a v m) = true := by
  unfold putCell
  split
  · exact wfFrom_mono h (by omega)
  · rw [wfFrom_cons]; exact ⟨hlo, ha, ‹_›, h⟩

/-- A write keeps the canonical form. -/
theorem writeByte_wfFrom (h : wfFrom size lo m = true) (hlo : lo ≤ a) (ha : a < size) :
    wfFrom size lo (writeByte m a v) = true := by
  induction m generalizing lo with
  | nil => exact putCell_wfFrom rfl hlo ha
  | cons x m ih =>
    obtain ⟨b, w⟩ := x
    have h' := h
    rw [wfFrom_cons] at h'
    unfold writeByte
    split
    · refine putCell_wfFrom ?_ hlo ha
      rw [wfFrom_cons]; exact ⟨by omega, h'.2⟩
    · split
      · subst ‹a = b›; exact putCell_wfFrom h'.2.2.2 hlo ha
      · rw [wfFrom_cons]
        exact ⟨h'.1, h'.2.1, h'.2.2.1, ih h'.2.2.2 (by omega)⟩

theorem writeByte_wf (h : wf size m = true) (ha : a < size) : wf size (writeByte m a v) = true :=
  writeByte_wfFrom h (Nat.zero_le _) ha

theorem readByte_putCell_other (hne : c ≠ a) : readByte (putCell a v m) c = readByte m c := by
  unfold putCell
  split
  · rfl
  · simp [readByte, hne]

/-- A write leaves every other address alone. -/
theorem readByte_writeByte_other (hne : c ≠ a) : readByte (writeByte m a v) c = readByte m c := by
  induction m with
  | nil => exact readByte_putCell_other hne
  | cons x m ih =>
    obtain ⟨b, w⟩ := x
    unfold writeByte
    split
    · exact readByte_putCell_other hne
    · split
      · subst ‹a = b›; rw [readByte_putCell_other hne]; simp [readByte, hne]
      · simp only [readByte, ih]

theorem readByte_putCell_same (h : wfFrom size lo m = true) (ha : a < lo) :
    readByte (putCell a v m) a = v := by
  unfold putCell
  split
  · rw [readByte_below h ha, ‹v = unlisted›]
  · simp [readByte]

theorem readByte_writeByte_sameFrom (h : wfFrom size lo m = true) : readByte (writeByte m a v) a = v := by
  induction m generalizing lo with
  | nil => exact readByte_putCell_same (size := a + 1) (lo := a + 1) rfl (by omega)
  | cons x m ih =>
    obtain ⟨b, w⟩ := x
    have h' := h
    rw [wfFrom_cons] at h'
    unfold writeByte
    split
    · refine readByte_putCell_same (size := size) (lo := b) ?_ ‹a < b›
      rw [wfFrom_cons]; exact ⟨le_rfl, h'.2⟩
    · split
      · subst ‹a = b›; exact readByte_putCell_same h'.2.2.2 (by omega)
      · simp only [readByte, if_neg ‹¬a = b›]; exact ih h'.2.2.2

/-- A read after a write to the same address gives the value written. -/
theorem readByte_writeByte_same (h : wf size m = true) : readByte (writeByte m a v) a = v :=
  readByte_writeByte_sameFrom h

/-- Storing a run of bytes keeps the canonical form. -/
theorem storeBytes_wf (h : wf size m = true) (hb : base + vs.length ≤ size) :
    wf size (storeBytes m base vs) = true := by
  induction vs generalizing m base with
  | nil => exact h
  | cons v vs ih =>
    rw [List.length_cons] at hb
    exact ih (writeByte_wf h (by omega)) (by omega)

/-- A run of bytes leaves every address outside it alone. -/
theorem readByte_storeBytes_outside (h : c < base ∨ base + vs.length ≤ c) :
    readByte (storeBytes m base vs) c = readByte m c := by
  induction vs generalizing m base with
  | nil => rfl
  | cons v vs ih =>
    rw [List.length_cons] at h
    rw [storeBytes, ih (by omega), readByte_writeByte_other (by omega)]

/-- Byte `k` of a stored run is byte `k` of the list. -/
theorem readByte_storeBytes_inside (h : wf size m = true) (hb : base + vs.length ≤ size) {k : Nat}
    (hk : k < vs.length) : readByte (storeBytes m base vs) (base + k) = vs[k] := by
  induction vs generalizing m base k with
  | nil => simp at hk
  | cons v vs ih =>
    rw [List.length_cons] at hb
    rw [storeBytes]
    cases k with
    | zero =>
      rw [readByte_storeBytes_outside (by omega)]
      simpa using readByte_writeByte_same h
    | succ k =>
      rw [List.length_cons] at hk
      have := ih (writeByte_wf (v := v) (a := base) h (by omega)) (base := base + 1) (by omega) (k := k) (by omega)
      rw [List.getElem_cons_succ, ← this]
      congr 1
      omega

theorem eq_of_readByte_eqFrom (h : wfFrom size lo m = true) (h' : wfFrom size lo m' = true)
    (heq : ∀ a, lo ≤ a → readByte m a = readByte m' a) : m = m' := by
  induction m generalizing lo m' with
  | nil =>
    cases m' with
    | nil => rfl
    | cons x m' =>
      obtain ⟨b, w⟩ := x
      rw [wfFrom_cons] at h'
      have := heq b h'.1
      simp only [readByte, if_true] at this
      exact absurd this.symm h'.2.2.1
  | cons x m ih =>
    obtain ⟨a, v⟩ := x
    have ha := wfFrom_cons.1 h
    cases m' with
    | nil =>
      have := heq a ha.1
      simp only [readByte, if_true] at this
      exact absurd this ha.2.2.1
    | cons y m' =>
      obtain ⟨b, w⟩ := y
      have hb := wfFrom_cons.1 h'
      rcases Nat.lt_trichotomy a b with hlt | rfl | hgt
      · have := heq a ha.1
        rw [readByte_below (wfFrom_cons.2 ⟨le_rfl, hb.2⟩) hlt] at this
        simp only [readByte, if_true] at this
        exact absurd this ha.2.2.1
      · have hv := heq a ha.1
        simp only [readByte, if_true] at hv
        subst hv
        congr 1
        refine ih ha.2.2.2 hb.2.2.2 fun c hc => ?_
        have := heq c (by omega)
        simpa [readByte, show c ≠ a by omega] using this
      · have := heq b hb.1
        rw [readByte_below (wfFrom_cons.2 ⟨le_rfl, ha.2⟩) hgt] at this
        simp only [readByte, if_true] at this
        exact absurd this.symm hb.2.2.1

/-- Two canonical stores that read alike are the same list. -/
theorem eq_of_readByte_eq (h : wf size m = true) (h' : wf size m' = true)
    (heq : ∀ a, readByte m a = readByte m' a) : m = m' :=
  eq_of_readByte_eqFrom h h' fun a _ => heq a

/-- Writing a byte back where it was read changes nothing. -/
theorem writeByte_readByte (h : wf size m = true) (ha : a < size) : writeByte m a (readByte m a) = m := by
  refine eq_of_readByte_eq (writeByte_wf h ha) h fun c => ?_
  by_cases hc : c = a
  · subst hc; exact readByte_writeByte_same h
  · exact readByte_writeByte_other hc

end Sys2Proof.Machine.Memory
end

