-- ==== Sys2Proof/Laws/State.lean ====
section
/-! SUPPORT. One lemma per field per update of the state, and the reads of the state through each update. -/

namespace Sys2Proof.Machine

variable (s : State)

/-! ### `State.withMem` -/

@[simp] theorem State.withMem_cfg (m : Memory) : (s.withMem m).cfg = s.cfg := rfl
@[simp] theorem State.withMem_mem (m : Memory) : (s.withMem m).mem = m := rfl
@[simp] theorem State.withMem_ov (m : Memory) : (s.withMem m).ov = s.ov := rfl
@[simp] theorem State.withMem_dma (m : Memory) : (s.withMem m).dma = s.dma := rfl
@[simp] theorem State.withMem_cart (m : Memory) : (s.withMem m).cart = s.cart := rfl
@[simp] theorem State.withMem_commands (m : Memory) : (s.withMem m).commands = s.commands := rfl
@[simp] theorem State.withMem_response (m : Memory) : (s.withMem m).response = s.response := rfl
@[simp] theorem State.withMem_overlayAt (m : Memory) (x : Byte) : (s.withMem m).overlayAt x = s.overlayAt x := rfl

/-! ### `State.withOverlay` -/

@[simp] theorem State.withOverlay_cfg (o : Memory) : (s.withOverlay o).cfg = s.cfg := rfl
@[simp] theorem State.withOverlay_mem (o : Memory) : (s.withOverlay o).mem = s.mem := rfl
@[simp] theorem State.withOverlay_ov (o : Memory) : (s.withOverlay o).ov = o := rfl
@[simp] theorem State.withOverlay_dma (o : Memory) : (s.withOverlay o).dma = s.dma := rfl
@[simp] theorem State.withOverlay_cart (o : Memory) : (s.withOverlay o).cart = s.cart := rfl
@[simp] theorem State.withOverlay_commands (o : Memory) : (s.withOverlay o).commands = s.commands := rfl
@[simp] theorem State.withOverlay_response (o : Memory) : (s.withOverlay o).response = s.response := rfl
@[simp] theorem State.withOverlay_byteAt (o : Memory) (x : Addr) : (s.withOverlay o).byteAt x = s.byteAt x := rfl
@[simp] theorem State.withOverlay_overlayActive (o : Memory) : (s.withOverlay o).overlayActive = s.overlayActive := rfl

/-! ### `State.withDma` -/

@[simp] theorem State.withDma_cfg (d : Dma) : (s.withDma d).cfg = s.cfg := rfl
@[simp] theorem State.withDma_mem (d : Dma) : (s.withDma d).mem = s.mem := rfl
@[simp] theorem State.withDma_ov (d : Dma) : (s.withDma d).ov = s.ov := rfl
@[simp] theorem State.withDma_dma (d : Dma) : (s.withDma d).dma = d := rfl
@[simp] theorem State.withDma_cart (d : Dma) : (s.withDma d).cart = s.cart := rfl
@[simp] theorem State.withDma_commands (d : Dma) : (s.withDma d).commands = s.commands := rfl
@[simp] theorem State.withDma_response (d : Dma) : (s.withDma d).response = s.response := rfl
@[simp] theorem State.withDma_byteAt (d : Dma) (x : Addr) : (s.withDma d).byteAt x = s.byteAt x := rfl
@[simp] theorem State.withDma_overlayAt (d : Dma) (x : Byte) : (s.withDma d).overlayAt x = s.overlayAt x := rfl
@[simp] theorem State.withDma_overlayActive (d : Dma) : (s.withDma d).overlayActive = s.overlayActive := rfl
@[simp] theorem State.withDma_memRead (d : Dma) (x : Addr) : memRead (s.withDma d) x = memRead s x := rfl

/-! ### `State.withCart` -/

@[simp] theorem State.withCart_cfg (c : CartState) : (s.withCart c).cfg = s.cfg := rfl
@[simp] theorem State.withCart_mem (c : CartState) : (s.withCart c).mem = s.mem := rfl
@[simp] theorem State.withCart_ov (c : CartState) : (s.withCart c).ov = s.ov := rfl
@[simp] theorem State.withCart_dma (c : CartState) : (s.withCart c).dma = s.dma := rfl
@[simp] theorem State.withCart_cart (c : CartState) : (s.withCart c).cart = c := rfl
@[simp] theorem State.withCart_commands (c : CartState) : (s.withCart c).commands = s.commands := rfl
@[simp] theorem State.withCart_response (c : CartState) : (s.withCart c).response = s.response := rfl
@[simp] theorem State.withCart_byteAt (c : CartState) (x : Addr) : (s.withCart c).byteAt x = s.byteAt x := rfl
@[simp] theorem State.withCart_overlayAt (c : CartState) (x : Byte) : (s.withCart c).overlayAt x = s.overlayAt x := rfl
@[simp] theorem State.withCart_overlayActive (c : CartState) : (s.withCart c).overlayActive = s.overlayActive := rfl

/-! ### `State.withCommands` -/

@[simp] theorem State.withCommands_cfg (ws : List CmdWord) : (s.withCommands ws).cfg = s.cfg := rfl
@[simp] theorem State.withCommands_mem (ws : List CmdWord) : (s.withCommands ws).mem = s.mem := rfl
@[simp] theorem State.withCommands_ov (ws : List CmdWord) : (s.withCommands ws).ov = s.ov := rfl
@[simp] theorem State.withCommands_dma (ws : List CmdWord) : (s.withCommands ws).dma = s.dma := rfl
@[simp] theorem State.withCommands_cart (ws : List CmdWord) : (s.withCommands ws).cart = s.cart := rfl
@[simp] theorem State.withCommands_commands (ws : List CmdWord) : (s.withCommands ws).commands = ws := rfl
@[simp] theorem State.withCommands_response (ws : List CmdWord) : (s.withCommands ws).response = s.response := rfl
@[simp] theorem State.withCommands_byteAt (ws : List CmdWord) (x : Addr) : (s.withCommands ws).byteAt x = s.byteAt x := rfl
@[simp] theorem State.withCommands_overlayAt (ws : List CmdWord) (x : Byte) : (s.withCommands ws).overlayAt x = s.overlayAt x := rfl
@[simp] theorem State.withCommands_overlayActive (ws : List CmdWord) : (s.withCommands ws).overlayActive = s.overlayActive := rfl
@[simp] theorem State.withCommands_memRead (ws : List CmdWord) (x : Addr) : memRead (s.withCommands ws) x = memRead s x := rfl

/-! ### `State.respond` -/

@[simp] theorem State.respond_cfg (r : Option Byte) : (s.respond r).cfg = s.cfg := rfl
@[simp] theorem State.respond_mem (r : Option Byte) : (s.respond r).mem = s.mem := rfl
@[simp] theorem State.respond_ov (r : Option Byte) : (s.respond r).ov = s.ov := rfl
@[simp] theorem State.respond_dma (r : Option Byte) : (s.respond r).dma = s.dma := rfl
@[simp] theorem State.respond_cart (r : Option Byte) : (s.respond r).cart = s.cart := rfl
@[simp] theorem State.respond_commands (r : Option Byte) : (s.respond r).commands = s.commands := rfl
@[simp] theorem State.respond_response (r : Option Byte) : (s.respond r).response = r := rfl
@[simp] theorem State.respond_byteAt (r : Option Byte) (x : Addr) : (s.respond r).byteAt x = s.byteAt x := rfl
@[simp] theorem State.respond_overlayAt (r : Option Byte) (x : Byte) : (s.respond r).overlayAt x = s.overlayAt x := rfl
@[simp] theorem State.respond_overlayActive (r : Option Byte) : (s.respond r).overlayActive = s.overlayActive := rfl
@[simp] theorem State.respond_memRead (r : Option Byte) (x : Addr) : memRead (s.respond r) x = memRead s x := rfl

/-! ### `State.setByte` -/

@[simp] theorem State.setByte_cfg (a : Addr) (v : Byte) : (s.setByte a v).cfg = s.cfg := rfl
@[simp] theorem State.setByte_mem (a : Addr) (v : Byte) : (s.setByte a v).mem = s.mem.writeByte a.toNat v := rfl
@[simp] theorem State.setByte_ov (a : Addr) (v : Byte) : (s.setByte a v).ov = s.ov := rfl
@[simp] theorem State.setByte_dma (a : Addr) (v : Byte) : (s.setByte a v).dma = s.dma := rfl
@[simp] theorem State.setByte_cart (a : Addr) (v : Byte) : (s.setByte a v).cart = s.cart := rfl
@[simp] theorem State.setByte_commands (a : Addr) (v : Byte) : (s.setByte a v).commands = s.commands := rfl
@[simp] theorem State.setByte_response (a : Addr) (v : Byte) : (s.setByte a v).response = s.response := rfl
@[simp] theorem State.setByte_overlayAt (a : Addr) (v : Byte) (x : Byte) : (s.setByte a v).overlayAt x = s.overlayAt x := rfl

/-! ### `State.setIfReg` -/

@[simp] theorem State.setIfReg_cfg (v : Byte) : (s.setIfReg v).cfg = s.cfg := rfl
@[simp] theorem State.setIfReg_mem (v : Byte) : (s.setIfReg v).mem = s.mem.writeByte s.cfg.ifAddr.toNat v := rfl
@[simp] theorem State.setIfReg_ov (v : Byte) : (s.setIfReg v).ov = s.ov := rfl
@[simp] theorem State.setIfReg_dma (v : Byte) : (s.setIfReg v).dma = s.dma := rfl
@[simp] theorem State.setIfReg_cart (v : Byte) : (s.setIfReg v).cart = s.cart := rfl
@[simp] theorem State.setIfReg_commands (v : Byte) : (s.setIfReg v).commands = s.commands := rfl
@[simp] theorem State.setIfReg_response (v : Byte) : (s.setIfReg v).response = s.response := rfl
@[simp] theorem State.setIfReg_overlayAt (v : Byte) (x : Byte) : (s.setIfReg v).overlayAt x = s.overlayAt x := rfl

end Sys2Proof.Machine
end

