-- ==== Sys2Proof/Laws/Ops.lean ====
section
/-! SUPPORT. What each shared operation can do: AddressSpace bytes, the register addresses, the two decoders, the DMA copy
and the bit operations. -/

namespace Sys2Proof.Machine

variable {s : State} {a b : Addr} {v : Byte}

/-! ### Bytes of AddressSpace -/

theorem addr_toNat_ne (h : b ≠ a) : b.toNat ≠ a.toNat := fun e => h (BitVec.eq_of_toNat_eq e)

theorem byteAt_setByte_other (h : b ≠ a) : (s.setByte a v).byteAt b = s.byteAt b :=
  Memory.readByte_writeByte_other (addr_toNat_ne h)

theorem byteAt_setByte_same (hm : s.mem.wf Config.spaceSize = true) : (s.setByte a v).byteAt a = v :=
  Memory.readByte_writeByte_same hm

theorem setByte_mem_wf (hm : s.mem.wf Config.spaceSize = true) :
    (s.setByte a v).mem.wf Config.spaceSize = true :=
  Memory.writeByte_wf hm a.isLt

/-- Storing at `b` the byte that stands there changes nothing. -/
theorem setByte_byteAt (hm : s.mem.wf Config.spaceSize = true) : s.setByte a (s.byteAt a) = s := by
  have := Memory.writeByte_readByte hm a.isLt
  unfold State.setByte State.byteAt State.withMem
  rw [this]

/-! ### The register addresses (00_scope.md R5) -/

theorem configValid_iff {cfg : Config} : configValid cfg = true ↔
    (0xFEA0 ≤ cfg.divAddr ∧ 0xFEA0 ≤ cfg.bootCtrlAddr ∧ 0xFEA0 ≤ cfg.ifAddr ∧ 0xFEA0 ≤ cfg.ieAddr ∧
      0xFEA0 ≤ cfg.dmaRegAddr) ∧
    [cfg.divAddr, cfg.bootCtrlAddr, cfg.ifAddr, cfg.ieAddr, cfg.dmaRegAddr].Nodup := by
  simp only [configValid, inRegisterRange, Bool.and_eq_true, decide_eq_true_eq, and_assoc]

theorem configValid_ranges {cfg : Config} (h : configValid cfg = true) :
    0xFEA0 ≤ cfg.divAddr ∧ 0xFEA0 ≤ cfg.bootCtrlAddr ∧ 0xFEA0 ≤ cfg.ifAddr ∧ 0xFEA0 ≤ cfg.ieAddr ∧
      0xFEA0 ≤ cfg.dmaRegAddr := (configValid_iff.1 h).1

theorem configValid_distinct {cfg : Config} (h : configValid cfg = true) :
    cfg.divAddr ≠ cfg.bootCtrlAddr ∧ cfg.divAddr ≠ cfg.ifAddr ∧ cfg.divAddr ≠ cfg.ieAddr ∧
    cfg.bootCtrlAddr ≠ cfg.ifAddr ∧ cfg.bootCtrlAddr ≠ cfg.ieAddr ∧ cfg.ifAddr ≠ cfg.ieAddr ∧
    cfg.dmaRegAddr ≠ cfg.divAddr ∧ cfg.dmaRegAddr ≠ cfg.bootCtrlAddr ∧ cfg.dmaRegAddr ≠ cfg.ifAddr ∧
    cfg.dmaRegAddr ≠ cfg.ieAddr := by
  have := (configValid_iff.1 h).2
  simp only [List.nodup_cons, List.mem_cons, List.not_mem_nil, or_false, not_or] at this
  obtain ⟨⟨h1, h2, h3, h4⟩, ⟨h5, h6, h7⟩, ⟨h8, h9⟩, h10, -⟩ := this
  exact ⟨h1, h2, h3, h5, h6, h8, Ne.symm h4, Ne.symm h7, Ne.symm h9, Ne.symm h10⟩

/-! ### The ranges -/

theorem inRomRead_iff : inRomRead a = true ↔ a < 0x8000 := by simp [inRomRead]
theorem inRomWrite_iff : inRomWrite a = true ↔ a ≤ 0x8000 := by simp [inRomWrite]
theorem inRamWindow_iff : inRamWindow a = true ↔ 0xA000 ≤ a ∧ a ≤ 0xBFFF := by simp [inRamWindow]
theorem inEchoedRam_iff : inEchoedRam a = true ↔ 0xC000 ≤ a ∧ a ≤ 0xDDFF := by simp [inEchoedRam]
theorem inRamTail_iff : inRamTail a = true ↔ 0xDE00 ≤ a ∧ a ≤ 0xDFFF := by simp [inRamTail]
theorem inEcho_iff : inEcho a = true ↔ 0xE000 ≤ a ∧ a ≤ 0xFDFF := by simp [inEcho]

/-- The mirror of working RAM lies in the echo region (20_memory.md R62). -/
theorem inEcho_echoUp (h : inEchoedRam a = true) : inEcho (echoUp a) = true := by
  rw [inEchoedRam_iff] at h; rw [inEcho_iff]; unfold echoUp; bv_omega

/-- The byte below the echo region lies in working RAM (20_memory.md R62). -/
theorem inEchoedRam_echoDown (h : inEcho a = true) : inEchoedRam (echoDown a) = true := by
  rw [inEcho_iff] at h; rw [inEchoedRam_iff]; unfold echoDown; bv_omega

theorem echoUp_echoDown : echoUp (echoDown a) = a := by unfold echoUp echoDown; bv_omega
theorem echoDown_echoUp : echoDown (echoUp a) = a := by unfold echoUp echoDown; bv_omega
theorem echoUp_ne : echoUp a ≠ a := by unfold echoUp; bv_omega
theorem echoDown_ne : echoDown a ≠ a := by unfold echoDown; bv_omega

/-! ### The read decoder (20_memory.md R55) -/

theorem memRead_overlay (h : a < 0x0100) (ho : s.overlayActive = true) :
    memRead s a = s.overlayAt (a.setWidth 8) := by
  unfold memRead; rw [if_pos ⟨h, ho⟩]

theorem memRead_rom (h : a < 0x8000) (ho : 0x0100 ≤ a ∨ s.overlayActive = false) :
    memRead s a = Config.cartRead s.cart a := by
  unfold memRead
  rw [if_neg, if_pos (inRomRead_iff.2 h)]
  rintro ⟨h1, h2⟩
  rcases ho with h3 | h3
  · bv_omega
  · rw [h3] at h2; cases h2

theorem memRead_ram (h : inRamWindow a = true) : memRead s a = Config.cartRead s.cart a := by
  have h' := inRamWindow_iff.1 h
  unfold memRead
  rw [if_neg (by rintro ⟨h1, -⟩; bv_omega), if_neg (by rw [inRomRead_iff]; bv_omega), if_pos h]

theorem memRead_space (h : 0x8000 ≤ a) (hr : inRamWindow a = false) : memRead s a = s.byteAt a := by
  unfold memRead
  rw [if_neg (by rintro ⟨h1, -⟩; bv_omega), if_neg (by rw [inRomRead_iff]; bv_omega), if_neg (by simp [hr])]

/-- Above the echoed RAM's start every read answers from AddressSpace. -/
theorem memRead_high (h : 0xC000 ≤ a) : memRead s a = s.byteAt a :=
  memRead_space (by bv_omega) (by
    rw [← Bool.not_eq_true, inRamWindow_iff]; rintro ⟨-, h2⟩; bv_omega)

/-! ### The write decoder (20_memory.md R60) -/

theorem memWrite_cart (h : inRomWrite a = true ∨ inRamWindow a = true) :
    memWrite s a v = s.withCart (Config.cartWrite s.cart a v) := by
  unfold memWrite
  rcases h with h | h
  · rw [if_pos h]
  · rw [if_pos h, ite_self]

theorem memWrite_echoedRam (h : inEchoedRam a = true) :
    memWrite s a v = (s.setByte a v).setByte (echoUp a) v := by
  have h' := inEchoedRam_iff.1 h
  unfold memWrite
  rw [if_neg (by rw [inRomWrite_iff]; bv_omega), if_neg (by rw [inRamWindow_iff]; bv_omega), if_pos h]

theorem memWrite_echo (h : inEcho a = true) :
    memWrite s a v = (s.setByte a v).setByte (echoDown a) v := by
  have h' := inEcho_iff.1 h
  unfold memWrite
  rw [if_neg (by rw [inRomWrite_iff]; bv_omega), if_neg (by rw [inRamWindow_iff]; bv_omega),
    if_neg (by rw [inEchoedRam_iff]; bv_omega), if_neg (by rw [inRamTail_iff]; bv_omega), if_pos h]

/-- From 0xFE00 up, the registers' own steps WR6, WR6B and WR7 decide. -/
theorem memWrite_high (h : 0xFE00 ≤ a) :
    memWrite s a v = if a = s.cfg.divAddr then s.setByte a 0x00
      else if a = s.cfg.bootCtrlAddr then bootCtrlWrite s a v else s.setByte a v := by
  unfold memWrite
  rw [if_neg (by rw [inRomWrite_iff]; bv_omega), if_neg (by rw [inRamWindow_iff]; bv_omega),
    if_neg (by rw [inEchoedRam_iff]; bv_omega), if_neg (by rw [inRamTail_iff]; bv_omega),
    if_neg (by rw [inEcho_iff]; bv_omega)]

/-- The plain bytes: video RAM but 0x8000, the tail of working RAM, and everything from 0xFE00 up but DIV and the
boot-control byte. -/
theorem memWrite_plain (h : (0x8001 ≤ a ∧ a ≤ 0x9FFF) ∨ inRamTail a = true ∨ 0xFE00 ≤ a)
    (hd : a ≠ s.cfg.divAddr) (hb : a ≠ s.cfg.bootCtrlAddr) : memWrite s a v = s.setByte a v := by
  unfold memWrite
  rw [inRamTail_iff] at h
  rw [if_neg (by rw [inRomWrite_iff]; bv_omega), if_neg (by rw [inRamWindow_iff]; bv_omega),
    if_neg (by rw [inEchoedRam_iff]; bv_omega)]
  rw [if_neg (show ¬inEcho a = true by rw [inEcho_iff]; bv_omega), if_neg hd, if_neg hb, ite_self]

/-- All that a write can do: one of the actions of 20_memory.md R60. -/
theorem memWrite_cases (hc : configValid s.cfg = true) (a : Addr) (v : Byte) :
    ((inRomWrite a = true ∨ inRamWindow a = true) ∧
      memWrite s a v = s.withCart (Config.cartWrite s.cart a v)) ∨
    (inEchoedRam a = true ∧ memWrite s a v = (s.setByte a v).setByte (echoUp a) v) ∨
    (inEcho a = true ∧ memWrite s a v = (s.setByte a v).setByte (echoDown a) v) ∨
    ((a = s.cfg.bootCtrlAddr ∧ s.byteAt a ≠ 0x00 ∧ v = 0x00) ∧ memWrite s a v = s) ∨
    (∃ u, (inRomWrite a = false ∧ inRamWindow a = false ∧ inEchoedRam a = false ∧ inEcho a = false ∧
      (a = s.cfg.bootCtrlAddr → s.byteAt a ≠ 0x00 → u ≠ 0x00)) ∧ memWrite s a v = s.setByte a u) := by
  by_cases h1 : inRomWrite a = true ∨ inRamWindow a = true
  · exact .inl ⟨h1, memWrite_cart h1⟩
  by_cases h2 : inEchoedRam a = true
  · exact .inr (.inl ⟨h2, memWrite_echoedRam h2⟩)
  by_cases h3 : inEcho a = true
  · exact .inr (.inr (.inl ⟨h3, memWrite_echo h3⟩))
  rw [not_or, Bool.not_eq_true, Bool.not_eq_true] at h1
  rw [Bool.not_eq_true] at h2 h3
  refine .inr (.inr (.inr ?_))
  have hr := configValid_ranges hc
  have hd := (configValid_distinct hc).1
  by_cases hb : a = s.cfg.bootCtrlAddr
  · have hw : memWrite s a v = bootCtrlWrite s a v := by
      rw [memWrite_high (by rw [hb]; bv_omega), if_neg (by rw [hb]; exact hd.symm), if_pos hb]
    rw [hw]
    unfold bootCtrlWrite
    by_cases hz : s.byteAt a ≠ 0x00 ∧ v = 0x00
    · exact .inl ⟨⟨hb, hz⟩, if_pos hz⟩
    · exact .inr ⟨v, ⟨h1.1, h1.2, h2, h3, fun _ hne hv => hz ⟨hne, hv⟩⟩, if_neg hz⟩
  · have hrange : 0xFE00 ≤ a ∨ (0x8001 ≤ a ∧ a ≤ 0x9FFF) ∨ inRamTail a = true := by
      rw [← Bool.not_eq_true, inRomWrite_iff, ← Bool.not_eq_true, inRamWindow_iff] at h1
      rw [← Bool.not_eq_true, inEchoedRam_iff] at h2
      rw [← Bool.not_eq_true, inEcho_iff] at h3
      rw [inRamTail_iff]
      bv_omega
    by_cases hdv : a = s.cfg.divAddr
    · refine .inr ⟨0x00, ⟨h1.1, h1.2, h2, h3, fun e => absurd e hb⟩, ?_⟩
      rw [memWrite_high (by rw [hdv]; bv_omega), if_pos hdv]
    · refine .inr ⟨v, ⟨h1.1, h1.2, h2, h3, fun e => absurd e hb⟩, ?_⟩
      exact memWrite_plain (by tauto) hdv hb

/-- A write changes AddressSpace and the cartridge, nothing else. -/
theorem memWrite_frame (s : State) (a : Addr) (v : Byte) :
    (memWrite s a v).cfg = s.cfg ∧ (memWrite s a v).ov = s.ov ∧ (memWrite s a v).dma = s.dma ∧
    (memWrite s a v).commands = s.commands ∧ (memWrite s a v).response = s.response := by
  unfold memWrite bootCtrlWrite
  (repeat' split) <;> exact ⟨rfl, rfl, rfl, rfl, rfl⟩

/-- What a write does depends on neither the DMA state nor the overlay, and carries both along. -/
theorem memWrite_withDma (s : State) (d : Dma) (a : Addr) (v : Byte) :
    memWrite (s.withDma d) a v = (memWrite s a v).withDma d := by
  unfold memWrite bootCtrlWrite
  simp only [apply_ite (fun u => State.withDma u d)]
  rfl

theorem memWrite_withOverlay (s : State) (o : Memory) (a : Addr) (v : Byte) :
    memWrite (s.withOverlay o) a v = (memWrite s a v).withOverlay o := by
  unfold memWrite bootCtrlWrite
  simp only [apply_ite (fun u => State.withOverlay u o)]
  rfl

/-- The bytes a DMA reads do not depend on what stands where no read of them looks: equal reads give equal buffers. -/
theorem dmaBuffer_congr {t : State} {start : Addr} (h : ∀ a, memRead t a = memRead s a) :
    dmaBuffer t start = dmaBuffer s start :=
  List.map_congr_left fun _ _ => h _

/-- A write keeps the canonical form. -/
theorem memWrite_mem_wf (hm : s.mem.wf Config.spaceSize = true) :
    (memWrite s a v).mem.wf Config.spaceSize = true := by
  unfold memWrite bootCtrlWrite
  (repeat' split) <;> first | exact hm | exact setByte_mem_wf hm | exact setByte_mem_wf (setByte_mem_wf hm)

/-! ### The DMA copy (42_dma.md R160) -/

theorem dmaBuffer_length {start : Addr} : (dmaBuffer s start).length = Config.dmaLength := by
  simp [dmaBuffer]

@[simp] theorem dmaCopy_cfg {start : Addr} : (dmaCopy s start).cfg = s.cfg := by
  unfold dmaCopy; rw [State.withMem_cfg]

@[simp] theorem dmaCopy_ov {start : Addr} : (dmaCopy s start).ov = s.ov := by
  unfold dmaCopy; rw [State.withMem_ov]

@[simp] theorem dmaCopy_dma {start : Addr} : (dmaCopy s start).dma = s.dma := by
  unfold dmaCopy; rw [State.withMem_dma]

@[simp] theorem dmaCopy_cart {start : Addr} : (dmaCopy s start).cart = s.cart := by
  unfold dmaCopy; rw [State.withMem_cart]

@[simp] theorem dmaCopy_commands {start : Addr} : (dmaCopy s start).commands = s.commands := by
  unfold dmaCopy; rw [State.withMem_commands]

@[simp] theorem dmaCopy_response {start : Addr} : (dmaCopy s start).response = s.response := by
  unfold dmaCopy; rw [State.withMem_response]

theorem dmaCopy_mem {start : Addr} :
    (dmaCopy s start).mem = Memory.storeBytes s.mem 65024 (dmaBuffer s start) := by
  have hd : Config.dmaDest.toNat = 65024 := rfl
  unfold dmaCopy
  rw [hd, State.withMem_mem]

theorem dmaCopy_mem_wf {start : Addr} (hm : s.mem.wf Config.spaceSize = true) :
    (dmaCopy s start).mem.wf Config.spaceSize = true := by
  rw [dmaCopy_mem]
  exact Memory.storeBytes_wf hm (by rw [dmaBuffer_length]; decide)

theorem dmaDest_toNat {i : Nat} (hi : i < 160) :
    (0xFE00 + BitVec.ofNat 16 i : Addr).toNat = 65024 + i := by
  have hd : (0xFE00 : Addr).toNat = 65024 := rfl
  rw [BitVec.toNat_add, BitVec.toNat_ofNat, hd]
  omega

theorem dmaBuffer_getElem {start : Addr} {i : Nat} (hi : i < (dmaBuffer s start).length) :
    (dmaBuffer s start)[i] = memRead s (dmaSource start i) := by
  simp only [dmaBuffer, List.getElem_map, List.getElem_range]

/-- Destination byte `i` of the copy is what the read decoder gave for source byte `i` before the copy. -/
theorem dmaCopy_inside {start : Addr} (hm : s.mem.wf Config.spaceSize = true) {i : Nat}
    (hi : i < 160) :
    (dmaCopy s start).byteAt (0xFE00 + BitVec.ofNat 16 i) = memRead s (start + BitVec.ofNat 16 i) := by
  have hb : (dmaBuffer s start)[i]'(by rw [dmaBuffer_length]; exact hi) = memRead s (dmaSource start i) :=
    dmaBuffer_getElem _
  rw [dmaSource] at hb
  unfold State.byteAt
  rw [dmaDest_toNat hi, dmaCopy_mem,
    Memory.readByte_storeBytes_inside hm (by rw [dmaBuffer_length]; decide) (by rw [dmaBuffer_length]; exact hi), hb]

/-- The copy leaves every byte outside the sprite table alone. -/
theorem dmaCopy_outside {start : Addr} (h : b < 0xFE00 ∨ 0xFE9F < b) :
    (dmaCopy s start).byteAt b = s.byteAt b := by
  unfold State.byteAt
  rw [dmaCopy_mem, Memory.readByte_storeBytes_outside]
  have : (dmaBuffer s start).length = 160 := dmaBuffer_length
  rw [this]
  bv_omega

/-! ### The bit operations (41_interrupt_regs.md R140 to R143) -/

theorem bitMask_getLsbD {k j : Nat} (hj : j < 8) : (bitMask k).getLsbD j = decide (j = k) := by
  unfold bitMask
  rw [BitVec.getLsbD_shiftLeft]
  by_cases h : j < k
  · simp [h, show j ≠ k by omega]
  · by_cases h2 : j = k
    · simp [h2]; omega
    · simp [h, h2, hj, BitVec.getLsbD_one]; omega

theorem testBit_eq {k : Nat} (hk : k < 8) : testBit v k = v.getLsbD k := by
  unfold testBit
  cases hv : v.getLsbD k
  · rw [bne_eq_false_iff_eq]
    refine BitVec.eq_of_getLsbD_eq fun j hj => ?_
    rw [BitVec.getLsbD_and, bitMask_getLsbD hj]
    by_cases h : j = k
    · subst h; simp [hv]
    · simp [h]
  · rw [bne_iff_ne]
    intro h
    have := congrArg (fun x => x.getLsbD k) h
    simp [BitVec.getLsbD_and, bitMask_getLsbD hk, hv] at this

theorem setBit_getLsbD {k j : Nat} (hj : j < 8) : (setBit v k).getLsbD j = (decide (j = k) || v.getLsbD j) := by
  unfold setBit
  rw [BitVec.getLsbD_or, bitMask_getLsbD hj, Bool.or_comm]

theorem clearBit_getLsbD {k j : Nat} (hj : j < 8) :
    (clearBit v k).getLsbD j = (!decide (j = k) && v.getLsbD j) := by
  unfold clearBit
  rw [BitVec.getLsbD_and, BitVec.getLsbD_not, bitMask_getLsbD hj, Bool.and_comm]
  simp [hj]

end Sys2Proof.Machine
end

