-- ==== Sys2Proof/Laws/PerInstr.lean ====
section
/-! SUPPORT. The layout of every command's word, one lemma per command (30_encoding.md R91, R98). -/

namespace Sys2Proof.Laws.EncodeLayout

/-- The four fields of a command's word: its OP, zeros in RSV, its address and its data operand. -/
def Statement (i : Instr) : Prop :=
  opField (encode i) = i.opcode ∧ rsvField (encode i) = 0 ∧
  addrField (encode i) = i.addrOperand ∧ dataField (encode i) = i.dataOperand

theorem of_joinFields (i : Instr) : Statement i :=
  ⟨opField_joinFields, rsvField_joinFields, addrField_joinFields, dataField_joinFields⟩

theorem step : Statement .step := of_joinFields _
theorem read (addr : Addr) : Statement (.read addr) := of_joinFields _
theorem write (addr : Addr) (data : Byte) : Statement (.write addr data) := of_joinFields _
theorem ietest (bit : Nat) : Statement (.ietest bit) := of_joinFields _
theorem iftest (bit : Nat) : Statement (.iftest bit) := of_joinFields _
theorem ifset (bit : Nat) : Statement (.ifset bit) := of_joinFields _
theorem ifclr (bit : Nat) : Statement (.ifclr bit) := of_joinFields _
theorem dma (start : Addr) : Statement (.dma start) := of_joinFields _

end Sys2Proof.Laws.EncodeLayout
end

