-- ==== Sys2Proof/Laws/Step.lean ====
section
/-! SUPPORT. What a command and a step can do: one equation per command on admitted operands, and the two inversion
lemmas that later proofs cite. -/

namespace Sys2Proof.Machine

variable {s t : State}

theorem withBit_next {bit : Nat} {k : Host.Outcome State Fault Refusal} :
    withBit bit k = .next t ↔ bit ≤ 4 ∧ k = .next t := by
  unfold withBit
  by_cases h : bit ≤ 4 <;> simp [bitAdmitted, h]

theorem withBit_admitted {bit : Nat} {k : Host.Outcome State Fault Refusal} (h : bit ≤ 4) : withBit bit k = k := by
  simp [withBit, bitAdmitted, h]

/-! ### What each command answers on admitted operands -/

theorem exec_step : exec .step s = .next ((s.withDma s.dma.advance).respond none) := rfl

theorem exec_read (a : Addr) : exec (.read a) s = .next (s.respond (some (memRead s a))) := rfl

theorem exec_write (a : Addr) (v : Byte) : exec (.write a v) s = .next ((memWrite s a v).respond none) := rfl

theorem exec_ietest {k : Nat} (h : k ≤ 4) :
    exec (.ietest k) s = .next (s.respond (some (boolByte (testBit s.ieReg k)))) := withBit_admitted h

theorem exec_iftest {k : Nat} (h : k ≤ 4) :
    exec (.iftest k) s = .next (s.respond (some (boolByte (testBit s.ifReg k)))) := withBit_admitted h

theorem exec_ifset {k : Nat} (h : k ≤ 4) :
    exec (.ifset k) s = .next ((s.setIfReg (setBit s.ifReg k)).respond none) := withBit_admitted h

theorem exec_ifclr {k : Nat} (h : k ≤ 4) :
    exec (.ifclr k) s = .next ((s.setIfReg (clearBit s.ifReg k)).respond none) := withBit_admitted h

theorem exec_dma (a : Addr) :
    exec (.dma a) s = .next (((dmaCopy s a).withDma ⟨true, 0⟩).respond none) := rfl

/-! ### Inversion -/

/-- All that a command can do when it answers a next state. -/
theorem exec_cases {i : Instr} (h : exec i s = .next t) :
    (i = .step ∧ t = (s.withDma s.dma.advance).respond none) ∨
    (∃ a, i = .read a ∧ t = s.respond (some (memRead s a))) ∨
    (∃ a v, i = .write a v ∧ t = (memWrite s a v).respond none) ∨
    (∃ k, (i = .ietest k ∨ i = .iftest k) ∧ k ≤ 4 ∧ ∃ r, t = s.respond (some r)) ∨
    (∃ k v, (i = .ifset k ∧ v = setBit s.ifReg k ∨ i = .ifclr k ∧ v = clearBit s.ifReg k) ∧ k ≤ 4 ∧
      t = (s.setIfReg v).respond none) ∨
    (∃ a, i = .dma a ∧ t = ((dmaCopy s a).withDma ⟨true, 0⟩).respond none) := by
  cases i with
  | step => exact .inl ⟨rfl, (Host.Outcome.next.inj h).symm⟩
  | read a => exact .inr (.inl ⟨a, rfl, (Host.Outcome.next.inj h).symm⟩)
  | write a v => exact .inr (.inr (.inl ⟨a, v, rfl, (Host.Outcome.next.inj h).symm⟩))
  | ietest k =>
    obtain ⟨hk, e⟩ := withBit_next.1 h
    exact .inr (.inr (.inr (.inl ⟨k, .inl rfl, hk, _, (Host.Outcome.next.inj e).symm⟩)))
  | iftest k =>
    obtain ⟨hk, e⟩ := withBit_next.1 h
    exact .inr (.inr (.inr (.inl ⟨k, .inr rfl, hk, _, (Host.Outcome.next.inj e).symm⟩)))
  | ifset k =>
    obtain ⟨hk, e⟩ := withBit_next.1 h
    exact .inr (.inr (.inr (.inr (.inl ⟨k, _, .inl ⟨rfl, rfl⟩, hk, (Host.Outcome.next.inj e).symm⟩))))
  | ifclr k =>
    obtain ⟨hk, e⟩ := withBit_next.1 h
    exact .inr (.inr (.inr (.inr (.inl ⟨k, _, .inr ⟨rfl, rfl⟩, hk, (Host.Outcome.next.inj e).symm⟩))))
  | dma a => exact .inr (.inr (.inr (.inr (.inr ⟨a, rfl, (Host.Outcome.next.inj h).symm⟩))))

/-- All that a step can do when it answers a next state: nothing with no command waiting, else the oldest command. -/
theorem step_cases (h : step s = .next t) :
    (s.commands = [] ∧ t = s) ∨
    ∃ w ws i, s.commands = w :: ws ∧ decode w = .ok i ∧ exec i (s.withCommands ws) = .next t := by
  unfold step at h
  split at h
  · exact .inl ⟨‹_›, (Host.Outcome.next.inj h).symm⟩
  · rename_i w ws hw
    unfold runWord at h
    split at h
    · exact .inr ⟨w, ws, _, hw, ‹_›, h⟩
    · cases h

theorem run_zero : Sys2Proof.core.run 0 s = .next s := rfl

theorem run_succ_next {u : State} (k : Nat) (h : step s = .next u) :
    Sys2Proof.core.run (k + 1) s = Sys2Proof.core.run k u := by
  have h' : Sys2Proof.core.step s = .next u := h
  simp only [Host.Core.run, h']

theorem run_succ_fault {f : Fault} (k : Nat) (h : step s = .fault f) :
    Sys2Proof.core.run (k + 1) s = .fault f := by
  have h' : Sys2Proof.core.step s = .fault f := h
  simp only [Host.Core.run, h']

theorem run_succ_refused {r : Refusal} (k : Nat) (h : step s = .refused r) :
    Sys2Proof.core.run (k + 1) s = .refused r := by
  have h' : Sys2Proof.core.step s = .refused r := h
  simp only [Host.Core.run, h']

/-- A property that every step keeps holds after any number of steps. -/
theorem run_keeps {P : State → Prop} (hstep : ∀ u v, P u → step u = .next v → P v) (k : Nat) (s t : State)
    (hs : P s) (h : Sys2Proof.core.run k s = .next t) : P t := by
  induction k generalizing s with
  | zero => exact Host.Outcome.next.inj h ▸ hs
  | succ k ih =>
    cases hu : step s with
    | next u => exact ih u (hstep s u hs hu) (run_succ_next k hu ▸ h)
    | fault f => rw [run_succ_fault k hu] at h; cases h
    | refused r => rw [run_succ_refused k hu] at h; cases h

end Sys2Proof.Machine
end

