-- ==== Sys2Proof/Tests/Slice0.lean ====
section
/-! SUPPORT. The model's own tests. Expected results come from spec/: its tables, its worked examples and
95_test_vectors.md, or are worked out by hand from its rules; each test names its source. The last part holds, for every
statement with hypotheses, a concrete state and operands that meet them together. -/

namespace Sys2Proof.Tests

open Sys2Proof Sys2Proof.Machine

/-! ### Ill-formed terms are refused (30_encoding.md R95; 00_scope.md R5) -/

theorem test_wf_ietest_5 : Instr.wf (.ietest 5) = false := by decide
theorem test_wf_iftest_5 : Instr.wf (.iftest 5) = false := by decide
theorem test_wf_ifset_5 : Instr.wf (.ifset 5) = false := by decide
theorem test_wf_ifclr_256 : Instr.wf (.ifclr 256) = false := by decide
theorem test_wf_ifset_4 : Instr.wf (.ifset 4) = true := by decide

theorem test_config_below_range :
    configValid { Config.defaults with divAddr := 0xFE9F } = false := by decide
theorem test_config_not_distinct :
    configValid { Config.defaults with ifAddr := 0xFFFF } = false := by decide
theorem test_config_defaults : configValid Config.defaults = true := by decide

/-! ### Words written out from the encoding tables (30_encoding.md R91, R93, R98; 95_test_vectors.md 2.7) -/

theorem test_decode_step : decode 0b0000_0000_0000000000000000_00000000 = .ok .step := by decide
theorem test_decode_read : decode 0b0001_0000_1110000100100011_00000000 = .ok (.read 0xE123) := by decide
theorem test_decode_write : decode 0b0010_0000_1100000000000000_01011010 = .ok (.write 0xC000 0x5A) := by decide
theorem test_decode_ietest : decode 0b0011_0000_0000000000000000_00000100 = .ok (.ietest 4) := by decide
theorem test_decode_iftest : decode 0b0100_0000_0000000000000000_00000011 = .ok (.iftest 3) := by decide
theorem test_decode_ifset : decode 0b0101_0000_0000000000000000_00000010 = .ok (.ifset 2) := by decide
theorem test_decode_ifclr : decode 0b0110_0000_0000000000000000_00000001 = .ok (.ifclr 1) := by decide
theorem test_decode_dma : decode 0b0111_0000_1111110111000000_00000000 = .ok (.dma 0xFDC0) := by decide
theorem test_decode_write_all_ones : decode 0x20FFFFFF = .ok (.write 0xFFFF 0xFF) := by decide

theorem test_refused_reserved_op : decode 0x80000000 = .error (.reservedOpcode 0x8) := by decide
theorem test_refused_rsv : decode 0x01000000 = .error (.reservedField 0x1) := by decide
theorem test_refused_step_data : decode 0x00000001 = .error (.dataNotZero 0x01) := by decide
theorem test_refused_step_addr : decode 0x00000100 = .error (.addrNotZero 0x0001) := by decide
theorem test_refused_read_data : decode 0x10C00001 = .error (.dataNotZero 0x01) := by decide
theorem test_refused_dma_data : decode 0x700000FF = .error (.dataNotZero 0xFF) := by decide
theorem test_refused_bit_5 : decode 0x50000005 = .error (.bitIndexAboveFour 5) := by decide
theorem test_refused_bit_8 : decode 0x50000008 = .error (.bitIndexAboveFour 8) := by decide
theorem test_refused_ietest_addr : decode 0x30000100 = .error (.addrNotZero 0x0001) := by decide

theorem test_table_word : decodeTableWord 32 0x70C10000 = some (.dma 0xC100) := by decide
theorem test_table_word_refused : decodeTableWord 32 0xF0000000 = none := by decide

/-! ### One step on a small state -/

/-- The reset machine with the bytes `m` in AddressSpace: with no cell at 0xFF50 the overlay is active. -/
def fixture (m : Memory) : State := State.reset.withMem m

/-- A byte of AddressSpace after an outcome that goes on. -/
def byteAfter (o : Host.Outcome State Fault Refusal) (a : Addr) : Option Byte :=
  match o with
  | .next t => some (t.byteAt a)
  | .fault _ => none
  | .refused _ => none

/-- The response after an outcome that goes on. -/
def responseAfter (o : Host.Outcome State Fault Refusal) : Option Byte :=
  match o with
  | .next t => t.response
  | .fault _ => none
  | .refused _ => none

/-- The DMA state after an outcome that goes on. -/
def dmaAfter (o : Host.Outcome State Fault Refusal) : Option Dma :=
  match o with
  | .next t => some t.dma
  | .fault _ => none
  | .refused _ => none

/-- 95_test_vectors.md 2.1: overlay byte 3 of the image 31 FE FF AF while the overlay is active. -/
theorem test_read_overlay :
    responseAfter (exec (.read 0x0003) ((fixture []).withOverlay (overlayOf (.bytes [0x31, 0xFE, 0xFF, 0xAF])))) =
      some 0xAF := by decide

/-- 40_bus_ops.md R121: with the overlay inactive the same address answers from the cartridge. -/
theorem test_read_cartridge :
    responseAfter (exec (.read 0x0003) State.reset) = some (Config.cartRead Config.resetCart 0x0003) := by rfl

/-- 95_test_vectors.md 2.2: WRITE 0xDDFF, 0x22 stores at 0xFDFF too. -/
theorem test_write_echo : byteAfter (exec (.write 0xDDFF 0x22) State.reset) 0xFDFF = some 0x22 := by decide

/-- 95_test_vectors.md 2.3: 0x00 onto a nonzero boot-control byte is ignored. -/
theorem test_write_boot_ignored : byteAfter (exec (.write 0xFF50 0x00) State.reset) 0xFF50 = some 0x01 := by decide

/-- 95_test_vectors.md 2.4: IE = 0x1F, bit 4 is set. -/
theorem test_ietest_4 : responseAfter (exec (.ietest 4) (fixture [(0xFFFF, 0x1F)])) = some 0x01 := by decide

/-- 95_test_vectors.md 2.4: IF = 0xE0, bit 0 is clear (bits 5..7 do not count). -/
theorem test_iftest_0 : responseAfter (exec (.iftest 0) (fixture [(0xFF0F, 0xE0)])) = some 0x00 := by decide

/-- 95_test_vectors.md 2.4: IF 0xE0, IFSET 4 gives 0xF0. -/
theorem test_ifset_4 : byteAfter (exec (.ifset 4) (fixture [(0xFF0F, 0xE0)])) 0xFF0F = some 0xF0 := by decide

/-- 95_test_vectors.md 2.4: IF 0xFF, IFCLR 4 gives 0xEF. -/
theorem test_ifclr_4 : byteAfter (exec (.ifclr 4) (fixture [(0xFF0F, 0xFF)])) 0xFF0F = some 0xEF := by decide

/-- 95_test_vectors.md part 3, P5: DMA 0xFDC0 over the sprite table takes the old byte of 0xFE00, not the new one. -/
theorem test_dma_overlap :
    byteAfter (exec (.dma 0xFDC0) (fixture [(0xFDC0, 0x01), (0xFE00, 0xAA)])) 0xFE40 = some 0xAA := by decide +kernel

/-- 95_test_vectors.md 2.5: DMA 0xFFA0 takes byte 0x5F from 0xFFFF. -/
theorem test_dma_top :
    byteAfter (exec (.dma 0xFFA0) (fixture [(0xFFFF, 0x1F)])) 0xFE5F = some 0x1F := by decide +kernel

/-- 95_test_vectors.md 2.6: Active(158) becomes Active(159). -/
theorem test_step_158 : dmaAfter (exec .step (State.reset.withDma ⟨true, 158⟩)) = some ⟨true, 159⟩ := by decide

/-- 95_test_vectors.md 2.6: Active(159) becomes Idle. -/
theorem test_step_159 : dmaAfter (exec .step (State.reset.withDma ⟨true, 159⟩)) = some ⟨false, 0⟩ := by decide

/-- 10_state.md R43: an image longer than 256 bytes is cut (byte 255 stays, byte 256 is dropped). -/
theorem test_overlay_cut :
    (overlayOf (.bytes (List.replicate 255 0x00 ++ [0x55, 0x66]))) = [(255, 0x55)] := by decide +kernel

/-- 30_encoding.md R97, R98: a line of text with a comment. -/
theorem test_assemble_line :
    assembleLine Config.defaults "WRITE 0xC000, 90 ; x".toList = some [0x20C0005A] := by decide

/-- 30_encoding.md R97: a bit index of 5 is an assembly error. -/
theorem test_assemble_error : assembleLine Config.defaults "IFSET 5".toList = none := by decide

/-- 60_exceptions.md R182: a command before init is refused. -/
theorem test_session_no_state : (Session.start.issue 0x00000000).refusalMark = some .noState := by decide

/-- The step runs the word placed on the command port. -/
theorem test_fetch_word : byteAfter (step (State.reset.withFetchWord 32 0x20C00011)) 0xE000 = some 0x11 := by decide

/-! ### Witnesses: concrete states and operands that meet the hypotheses of each statement -/

theorem witness_DecodeOfEncodedCommand : Instr.wf (.ifset 4) ∧ Instr.wf (.write 0xFFFF 0xFF) := by decide

theorem witness_EncodeOfDecodedWord : decode 0x20FFFFFF = .ok (.write 0xFFFF 0xFF) := by decide

theorem witness_DecoderAcceptsExactlyTheOpcodeTable :
    decode 0x50000004 = .ok (.ifset 4) ∧ ∃ r ∈ opcodeRows, r.spells 0x50000004 := by decide

/-- A machine with one word waiting. -/
def waiting (w : CmdWord) : State := State.reset.withCommands [w]

theorem witness_StepRefusesExactlyTheWordsThatSpellNoCommand :
    (waiting 0x80000000).commands = [0x80000000] ∧
    SpellsNoCommand 0x80000000 ∧ SpellsNoCommand 0x2F000000 ∧ SpellsNoCommand 0x00000100 ∧
    SpellsNoCommand 0x700000FF ∧ SpellsNoCommand 0x50000005 ∧ ¬ SpellsNoCommand 0x50000004 :=
  ⟨rfl, by decide, by decide, by decide, by decide, by decide, by decide⟩

theorem witness_StepRunsTheDecodedCommand :
    (waiting 0x20C0005A).commands = [0x20C0005A] ∧ decode 0x20C0005A = .ok (.write 0xC000 0x5A) := by decide

theorem witness_IdleStepChangesNothing : State.reset.commands = [] := rfl

/-- Every clause of the read rules at both ends of its range. -/
theorem witness_ReadAnswersByTheOrderedReadRules :
    ((0x0000 : Addr) < 0x0100 ∧ (0x00FF : Addr) < 0x0100 ∧
      (fixture []).byteAt (fixture []).cfg.bootCtrlAddr = 0x00 ∧
      State.reset.byteAt State.reset.cfg.bootCtrlAddr ≠ 0x00) ∧
    ((0x0100 : Addr) ≤ 0x0100 ∧ (0x7FFF : Addr) < 0x8000) ∧
    ((0xA000 : Addr) ≤ 0xA000 ∧ (0xBFFF : Addr) ≤ 0xBFFF) ∧
    ((0x8000 : Addr) ≤ 0x8000 ∧ (0x9FFF : Addr) ≤ 0x9FFF) ∧
    ((0xC000 : Addr) ≤ 0xC000 ∧ (0xC000 : Addr) ≤ 0xFFFF) := by decide

theorem witness_ReadAfterBootOffAnswersFromTheCartridge :
    configValid (fixture []).cfg ∧ (fixture []).mem.wf Config.spaceSize ∧ (0x01 : Byte) ≠ 0x00 ∧
    (0x00FF : Addr) < 0x0100 := by decide

theorem witness_WriteToCartridgeWindowGoesToTheCartridge :
    (0x8000 : Addr) ≤ 0x8000 ∧ ((0xA000 : Addr) ≤ 0xBFFF ∧ (0xBFFF : Addr) ≤ 0xBFFF) := by decide

theorem witness_WriteStoresBothAliasesOfWorkingRam :
    State.reset.mem.wf Config.spaceSize ∧ ((0xC000 : Addr) ≤ 0xDDFF ∧ (0xDDFF : Addr) ≤ 0xDDFF) ∧
    ((0xE000 : Addr) ≤ 0xFDFF ∧ (0xFDFF : Addr) ≤ 0xFDFF) := by decide

theorem witness_WriteThroughOneAliasReadsBackThroughBoth :
    State.reset.mem.wf Config.spaceSize ∧ (0xC000 : Addr) ≤ 0xDDFF ∧ (0xDDFF : Addr) ≤ 0xDDFF := by decide

theorem witness_WriteToRamTailStoresOneByte :
    State.reset.mem.wf Config.spaceSize ∧ (0xDE00 : Addr) ≤ 0xDFFF ∧ (0xDFFF : Addr) ≤ 0xDFFF := by decide

theorem witness_WriteToPlainByteStoresItWhole :
    State.reset.mem.wf Config.spaceSize ∧ ((0x8001 : Addr) ≤ 0x8001 ∧ (0x9FFF : Addr) ≤ 0x9FFF) ∧
    (0xFE00 : Addr) ≤ 0xFE00 ∧ (0xFFFF : Addr) ≠ State.reset.cfg.divAddr ∧
    (0xFFFF : Addr) ≠ State.reset.cfg.bootCtrlAddr := by decide

theorem witness_WriteToDividerStoresZero :
    configValid State.reset.cfg ∧ State.reset.mem.wf Config.spaceSize := by decide

theorem witness_BootControlWriteIgnoresZeroOntoNonzero :
    configValid State.reset.cfg ∧ State.reset.mem.wf Config.spaceSize ∧
    (State.reset.byteAt State.reset.cfg.bootCtrlAddr ≠ 0x00 ∧ (0x00 : Byte) = 0x00) ∧
    ¬ (State.reset.byteAt State.reset.cfg.bootCtrlAddr ≠ 0x00 ∧ (0x01 : Byte) = 0x00) := by decide

theorem witness_WriteChangesOnlyItsByteAndItsMirror :
    (inEchoedRam 0xC000 ∧ (0xDFFF : Addr) ≠ 0xC000 ∧ (0xDFFF : Addr) ≠ echoUp 0xC000) ∧
    (inEcho 0xFDFF ∧ (0xFE00 : Addr) ≠ 0xFDFF ∧ (0xFE00 : Addr) ≠ echoDown 0xFDFF) ∧
    inRomWrite 0x8000 ∧ inRamWindow 0xA000 ∧ ¬ (inRomWrite 0x8001 ∨ inRamWindow 0x8001) := by decide

theorem witness_WritingTheSameByteTwiceIsWritingItOnce : State.reset.mem.wf Config.spaceSize := by decide

theorem witness_bit_commands : (0 : Nat) ≤ 4 ∧ (4 : Nat) ≤ 4 ∧ State.reset.mem.wf Config.spaceSize ∧
    configValid State.reset.cfg := by decide

theorem witness_IetestAnswersItsBit : (4 : Nat) ≤ 4 := by decide
theorem witness_IftestAnswersItsBit : (0 : Nat) ≤ 4 := by decide
theorem witness_IfsetChangesOneBitOfIf : (4 : Nat) ≤ 4 ∧ State.reset.mem.wf Config.spaceSize := by decide
theorem witness_IfclrChangesOneBitOfIf : (0 : Nat) ≤ 4 ∧ State.reset.mem.wf Config.spaceSize := by decide
theorem witness_SetOrClearThenTestAnswers : (4 : Nat) ≤ 4 ∧ configValid State.reset.cfg ∧
    State.reset.mem.wf Config.spaceSize := by decide
theorem witness_AccessorsAgreeWithTheDecoders : configValid State.reset.cfg := by decide
theorem witness_BitIndexAboveFourIsRefused : 4 < 5 ∧ 4 < 255 := by decide

/-- A command that is none of those that change IF, and its outcome. -/
theorem witness_OnlyAccessorsAndWritesChangeIf :
    configValid State.reset.cfg ∧ (∃ t, exec (.dma 0xC000) State.reset = .next t) ∧
    (∀ k, Instr.dma 0xC000 ≠ .ifset k) ∧ (∀ k, Instr.dma 0xC000 ≠ .ifclr k) ∧
    (∀ v, Instr.dma 0xC000 ≠ .write State.reset.cfg.ifAddr v) :=
  ⟨by decide, ⟨_, rfl⟩, nofun, nofun, nofun⟩

theorem witness_OnlyAWriteChangesIe :
    configValid State.reset.cfg ∧ (∃ t, exec (.ifset 4) State.reset = .next t) ∧
    (∀ v, Instr.ifset 4 ≠ .write State.reset.cfg.ieAddr v) :=
  ⟨by decide, ⟨_, rfl⟩, nofun⟩

theorem witness_DmaCopiesTheBytesReadAtTheCall : State.reset.mem.wf Config.spaceSize ∧ 0 < 160 ∧ 159 < 160 ∧
    (0xFDFF : Addr) < 0xFE00 ∧ (0xFE9F : Addr) < 0xFEA0 := by decide

theorem witness_SpriteTableReadsBackAtOnceAfterDma : State.reset.mem.wf Config.spaceSize ∧ 159 < 160 := by decide
theorem witness_DmaCopyEqualsDecoderWrites : configValid State.reset.cfg := by decide
theorem witness_DmaOntoItselfLeavesTheSpriteTable : (fixture [(0xFE00, 0xAA)]).mem.wf Config.spaceSize := by decide

theorem witness_StepAdvancesTheDmaCount :
    opField 0x00000001 = 0 ∧ (0x00000001 : CmdWord) ≠ 0x00000000 ∧ State.reset.dma.active = false ∧
    (Dma.mk true 158).elapsed.toNat + 1 < 160 ∧ (Dma.mk true 159).elapsed.toNat + 1 = 160 := by decide

theorem witness_BusyWindowLastsOneHundredSixtySteps :
    (State.reset.withCommands (List.replicate 160 0x00000000)).commands =
      List.replicate 160 (0x00000000 : CmdWord) ++ [] := by
  rw [State.withCommands_commands, List.append_nil]

theorem witness_OnlyStepAndDmaChangeTheDmaState :
    (∃ t, exec (.read 0xFE00) State.reset = .next t) ∧ Instr.read 0xFE00 ≠ .step ∧
    (∀ a, Instr.read 0xFE00 ≠ .dma a) := ⟨⟨_, rfl⟩, nofun, nofun⟩

theorem witness_BusyLocksNothing :
    (∃ t, exec (.write 0xFE00 0x01) State.reset = .next t) ∧ Instr.write 0xFE00 0x01 ≠ .step ∧
    (∀ a, Instr.write 0xFE00 0x01 ≠ .dma a) ∧
    exec (.ifset 5) State.reset = .refused (.noSuchCommand (.bitIndexAboveFour 5)) :=
  ⟨⟨_, rfl⟩, nofun, nofun, rfl⟩

theorem witness_InitMeetsTheInvariant :
    ∃ t, initFrom Config.defaults (.bytes [0x31]) (.ok Config.resetCart) = .next t := ⟨_, rfl⟩

/-- The reset machine in the middle of a busy window, with a STEP waiting. -/
def busy : State := (State.reset.withDma ⟨true, 37⟩).withCommands [0x00000000]

theorem busy_byteAt {a : Addr} (h : a ≠ 0xFF50) : busy.byteAt a = 0x00 := by
  show Memory.readByte [(0xFF50, 0x01)] a.toNat = 0x00
  have hn : a.toNat ≠ 0xFF50 := addr_toNat_ne h
  simp only [Memory.readByte, if_neg hn]
  rfl

theorem busy_inv : Inv busy where
  config := by decide
  memory := by decide
  overlay := rfl
  echo a h := by
    have h1 := inEchoedRam_iff.1 h
    have h2 := inEcho_iff.1 (inEcho_echoUp h)
    rw [busy_byteAt (by bv_omega), busy_byteAt (by bv_omega)]
  shadow a h := by
    rw [inRomWrite_iff, inRamWindow_iff] at h
    exact busy_byteAt (by bv_omega)
  count := by decide
  idle h := by cases h

theorem witness_EveryStepKeepsTheInvariant : Inv busy ∧ ∃ t, step busy = .next t := ⟨busy_inv, _, rfl⟩

theorem witness_BootSwitchIsOneWay :
    Inv busy ∧ busy.byteAt busy.cfg.bootCtrlAddr ≠ 0x00 ∧ ∃ t, Sys2Proof.core.run 2 busy = .next t :=
  ⟨busy_inv, by decide, _, rfl⟩

theorem witness_OverlayIsNeverWritten : ∃ t, Sys2Proof.core.run 1 busy = .next t := ⟨_, rfl⟩

theorem witness_OverlayIsUnobservableAfterTheSwitch :
    Inv busy ∧ busy.byteAt busy.cfg.bootCtrlAddr ≠ 0x00 ∧ ∃ t, Sys2Proof.core.run 1 busy = .next t :=
  ⟨busy_inv, by decide, _, rfl⟩

theorem witness_ShadowedBytesAreNeverObservedOrWritten :
    configValid State.reset.cfg ∧ (0x7FFF : Addr) < 0x8000 ∧ ((0xA000 : Addr) ≤ 0xA000 ∧ (0xBFFF : Addr) ≤ 0xBFFF) ∧
    (0x8000 : Addr) ≤ 0x8000 ∧ ∃ t, exec (.write 0x8000 0x77) State.reset = .next t :=
  ⟨by decide, by decide, by decide, by decide, _, rfl⟩

theorem witness_InitFailsOnlyByItsTwoErrors :
    configValid { Config.defaults with ifAddr := 0xFFFF } = false ∧ configValid Config.defaults ∧
    BootImage.none ≠ .unreadable ∧ BootImage.bytes [] ≠ .unreadable := by decide

theorem witness_InitSetsBootControlAndDma : configValid Config.defaults := by decide
theorem witness_InitClearsMemoryAndLoadsTheOverlay : configValid Config.defaults := by decide
theorem witness_FirstReadWithoutBootImageIsTheCartridges : configValid Config.defaults := by decide
theorem witness_FirstReadWithBootImageIsTheImages : configValid Config.defaults := by decide

theorem witness_RefusalMarkIsStickyAndStateKept :
    Session.start.block = none ∧
    (Session.mk (some State.reset) none none).block = some State.reset ∧
    SpellsNoCommand 0x80000000 ∧ ¬ SpellsNoCommand 0x00000000 ∧
    (Session.mk none (some .noState) none).refusalMark = some .noState :=
  ⟨rfl, rfl, by decide, by decide, rfl⟩

/-- Both ends of the byte range, the first value above it, and the least count of STEPN. -/
theorem witness_PseudoInstructionsExpand : 0 ≤ 0xFF ∧ 0xFF ≤ 0xFF ∧ 0xFF < 0x100 ∧ 1 ≤ 1 := by decide

/-- A line that assembles, and the first operand out of each range. -/
theorem witness_AssembledWordsAreCommands :
    AsmLine.assemble Config.defaults (.ifset 4) = some [0x50000004] ∧
    0xFFFF < 0x10000 ∧ 0xFF < 0x100 ∧ 4 < 5 := by decide

/-- Both ends of each operand's range. -/
theorem witness_InRangeLinesAssembleToTheirFields :
    (0 ≤ 0xFFFF ∧ 0xFFFF ≤ 0xFFFF) ∧ (0 ≤ 0xFF ∧ 0xFF ≤ 0xFF) ∧ 0 ≤ 4 ∧ 4 ≤ 4 := by decide

end Sys2Proof.Tests
end

/-! PROOFS. The family 10_state.md: the boot-control byte and the DMA engine after init (R41, R42), and the one-way
boot switch (R25). -/

namespace Sys2Proof.Machine

/-! ### The state init builds -/

/-- init succeeds on every admitted configuration with no image or a readable one, and builds `initialState`. -/
theorem initFrom_ok {cfg : Config} {img : BootImage} (hc : configValid cfg = true) (hi : img ≠ .unreadable)
    (c : CartState) : initFrom cfg img (.ok c) = .next (initialState cfg img c) := by
  unfold initFrom
  rw [if_pos hc]
  cases img with
  | none => rfl
  | unreadable => exact absurd rfl hi
  | bytes b => rfl

theorem initialState_byteAt_bootCtrl (cfg : Config) (img : BootImage) (c : CartState) :
    (initialState cfg img c).byteAt cfg.bootCtrlAddr = bootCtrlOf img :=
  Memory.readByte_writeByte_same (size := Config.spaceSize) rfl

/-- What init leaves in the boot-control byte and in the engine, for either kind of image. -/
theorem initFrom_bootCtrl_dma {cfg : Config} {img : BootImage} (hc : configValid cfg = true) (hi : img ≠ .unreadable)
    (c : CartState) :
    ∃ t, initFrom cfg img (.ok c) = .next t ∧ t.byteAt cfg.bootCtrlAddr = bootCtrlOf img ∧
      t.dma = { active := false, elapsed := 0 } ∧ t.dmaBusy = false :=
  ⟨initialState cfg img c, initFrom_ok hc hi c, initialState_byteAt_bootCtrl cfg img c, rfl, rfl⟩

/-- Settles O48: `bootCtrlOf` is 0x01 without an image and 0x00 with one. -/
theorem initSetsBootControlAndDma : Obligations.InitSetsBootControlAndDma := by
  unfold Obligations.InitSetsBootControlAndDma
  intro cfg c hc
  constructor
  · exact initFrom_bootCtrl_dma (img := .none) hc nofun c
  · exact fun b => initFrom_bootCtrl_dma (img := .bytes b) hc nofun c

/-! ### The overlay's switch (10_state.md R25) -/

theorem overlayActive_iff {s : State} : s.overlayActive = true ↔ s.byteAt s.cfg.bootCtrlAddr = 0x00 := by
  simp only [State.overlayActive, State.bootCtrl, beq_iff_eq]

theorem overlayActive_eq_false_iff {s : State} :
    s.overlayActive = false ↔ s.byteAt s.cfg.bootCtrlAddr ≠ 0x00 := by
  rw [← Bool.not_eq_true, overlayActive_iff]

/-- The boot-control byte lies above working RAM and its echo. -/
theorem ne_bootCtrlAddr_of_workingRam {cfg : Config} {a : Addr} (hc : configValid cfg = true)
    (ha : inEchoedRam a = true ∨ inEcho a = true) : a ≠ cfg.bootCtrlAddr := by
  obtain ⟨-, hb, -⟩ := configValid_ranges hc
  rw [inEchoedRam_iff, inEcho_iff] at ha
  bv_omega

/-- The switch is thrown: what `Inv` says of the configuration and of AddressSpace, and a nonzero boot-control byte. -/
structure BootOff (s : State) : Prop where
  config : configValid s.cfg = true
  memory : s.mem.wf Config.spaceSize = true
  switched : s.byteAt s.cfg.bootCtrlAddr ≠ 0x00

variable {s t : State}

/-- Only the configuration and AddressSpace matter; that an update keeps both is the simp set of Laws/State. -/
theorem BootOff.congr (h : BootOff s) (hc : t.cfg = s.cfg := by simp) (hm : t.mem = s.mem := by simp) : BootOff t where
  config := hc ▸ h.config
  memory := hm ▸ h.memory
  switched := by
    unfold State.byteAt
    rw [hc, hm]
    exact h.switched

/-- A direct store keeps the switch thrown unless it puts 0x00 onto the boot-control byte itself. -/
theorem setByte_keeps_bootOff {a : Addr} {v : Byte} (h : BootOff s) (hv : a = s.cfg.bootCtrlAddr → v ≠ 0x00) :
    BootOff (s.setByte a v) where
  config := h.config
  memory := setByte_mem_wf h.memory
  switched := by
    rw [State.setByte_cfg]
    by_cases ha : a = s.cfg.bootCtrlAddr
    · rw [← ha, byteAt_setByte_same h.memory]
      exact hv ha
    · rw [byteAt_setByte_other (Ne.symm ha)]
      exact h.switched

/-- Stores to a byte of working RAM and to its mirror, in either order. -/
theorem setByte_workingRam_keeps_bootOff {a b : Addr} {v : Byte} (h : BootOff s)
    (ha : inEchoedRam a = true ∨ inEcho a = true) (hb : inEchoedRam b = true ∨ inEcho b = true) :
    BootOff ((s.setByte a v).setByte b v) := by
  have hs : BootOff (s.setByte a v) :=
    setByte_keeps_bootOff h fun e => absurd e (ne_bootCtrlAddr_of_workingRam h.config ha)
  exact setByte_keeps_bootOff hs fun e => absurd e (ne_bootCtrlAddr_of_workingRam h.config hb)

/-- IF is another byte than the boot-control byte (00_scope.md R5). -/
theorem setIfReg_keeps_bootOff (v : Byte) (h : BootOff s) : BootOff (s.setIfReg v) := by
  obtain ⟨-, -, -, hne, -⟩ := configValid_distinct h.config
  exact setByte_keeps_bootOff h fun e => absurd e.symm hne

/-- The write decoder ignores 0x00 onto a nonzero boot-control byte (20_memory.md R65), the one write that could undo
the switch. -/
theorem memWrite_keeps_bootOff (a : Addr) (v : Byte) (h : BootOff s) : BootOff (memWrite s a v) := by
  obtain ⟨-, e⟩ | ⟨ha, e⟩ | ⟨ha, e⟩ | ⟨-, e⟩ | ⟨u, ⟨-, -, -, -, hu⟩, e⟩ :=
    memWrite_cases h.config a v <;> rw [e]
  · exact h.congr
  · exact setByte_workingRam_keeps_bootOff h (.inl ha) (.inr (inEcho_echoUp ha))
  · exact setByte_workingRam_keeps_bootOff h (.inr ha) (.inl (inEchoedRam_echoDown ha))
  · exact h
  · exact setByte_keeps_bootOff h fun ha => hu ha (ha ▸ h.switched)

/-- The boot-control byte lies above the sprite table, where a DMA copies to. -/
theorem dmaCopy_keeps_bootOff (start : Addr) (h : BootOff s) : BootOff (dmaCopy s start) where
  config := by rw [dmaCopy_cfg]; exact h.config
  memory := dmaCopy_mem_wf h.memory
  switched := by
    obtain ⟨-, hb, -⟩ := configValid_ranges h.config
    rw [dmaCopy_cfg, dmaCopy_outside (.inr (by bv_omega))]
    exact h.switched

theorem exec_keeps_bootOff {i : Instr} (h : BootOff s) (he : exec i s = .next t) : BootOff t := by
  obtain ⟨-, rfl⟩ | ⟨a, -, rfl⟩ | ⟨a, v, -, rfl⟩ | ⟨k, -, -, r, rfl⟩ | ⟨k, v, -, -, rfl⟩ | ⟨a, -, rfl⟩ :=
    exec_cases he
  · exact h.congr
  · exact h.congr
  · exact (memWrite_keeps_bootOff a v h).congr
  · exact h.congr
  · exact (setIfReg_keeps_bootOff v h).congr
  · exact (dmaCopy_keeps_bootOff a h).congr

theorem step_keeps_bootOff (h : BootOff s) (hs : step s = .next t) : BootOff t := by
  obtain ⟨-, rfl⟩ | ⟨w, ws, i, -, -, he⟩ := step_cases hs
  · exact h
  · exact exec_keeps_bootOff (s := s.withCommands ws) h.congr he

/-- Settles O41: every step keeps the switch thrown (`step_keeps_bootOff`), so every run does. -/
theorem bootSwitchIsOneWay : Obligations.BootSwitchIsOneWay := by
  unfold Obligations.BootSwitchIsOneWay
  refine ⟨fun s => overlayActive_iff, fun k s t hinv hb hrun => ?_⟩
  have hoff : BootOff t :=
    run_keeps (fun _ _ => step_keeps_bootOff) k s t ⟨hinv.config, hinv.memory, hb⟩ hrun
  exact ⟨hoff.switched, overlayActive_eq_false_iff.2 hoff.switched⟩

end Sys2Proof.Machine

/-! PROOFS. The family 20_memory.md: the ordered read rules (R55), and the writes to 0x8000 (R61), to the tail of working
RAM (R64) and to the divider (R63). -/

namespace Sys2Proof.Machine

variable {s : State} {a : Addr} {u v : Byte}

/-! ### What READ answers -/

/-- Video RAM lies outside the cartridge's windows. -/
theorem memRead_videoRam (hlo : 0x8000 ≤ a) (hhi : a ≤ 0x9FFF) : memRead s a = s.byteAt a := by
  have hr : ¬inRamWindow a = true := by
    rw [inRamWindow_iff]
    bv_omega
  exact memRead_space hlo (Bool.eq_false_of_not_eq_true hr)

/-- Settles O8: the read rules on the two halves of the overlay's switch and on the other four ranges. -/
theorem readAnswersByTheOrderedReadRules : Obligations.ReadAnswersByTheOrderedReadRules := by
  unfold Obligations.ReadAnswersByTheOrderedReadRules
  intro s a
  refine ⟨memRead s a, exec_read a, ?overlay, ?switched, ?rom, ?ram, ?video, ?high⟩
  case overlay => exact fun ha hb => memRead_overlay ha (overlayActive_iff.2 hb)
  case switched => exact fun ha hb => memRead_rom (by bv_omega) (.inr (overlayActive_eq_false_iff.2 hb))
  case rom => exact fun hlo hhi => memRead_rom hhi (.inl hlo)
  case ram => exact fun hlo hhi => memRead_ram (inRamWindow_iff.2 ⟨hlo, hhi⟩)
  case video => exact memRead_videoRam
  case high => exact memRead_high

/-! ### Writes that store one byte -/

/-- A WRITE that the decoder turns into one store of `u`: that byte, and the frame. -/
theorem exec_write_of_setByte (hm : s.mem.wf Config.spaceSize = true) (hw : memWrite s a v = s.setByte a u) :
    ∃ t, exec (.write a v) s = .next t ∧ t.byteAt a = u ∧ (∀ b, b ≠ a → t.byteAt b = s.byteAt b) ∧
      SameOutsideMemory s t := by
  refine ⟨(s.setByte a u).respond none, ?_, byteAt_setByte_same hm, fun b hb => byteAt_setByte_other hb,
    rfl, rfl, rfl, rfl, rfl⟩
  rw [exec_write, hw]

/-- Step WR4 comes before those of the registers, so no register address matters. -/
theorem memWrite_ramTail (h : inRamTail a = true) : memWrite s a v = s.setByte a v := by
  have hr := inRamTail_iff.1 h
  unfold memWrite
  rw [if_neg (by rw [inRomWrite_iff]; bv_omega), if_neg (by rw [inRamWindow_iff]; bv_omega),
    if_neg (by rw [inEchoedRam_iff]; bv_omega), if_pos h]

/-- Settles O14: the tail's step stores one byte. -/
theorem writeToRamTailStoresOneByte : Obligations.WriteToRamTailStoresOneByte := by
  unfold Obligations.WriteToRamTailStoresOneByte
  exact fun s a v hm hlo hhi => exec_write_of_setByte hm (memWrite_ramTail (inRamTail_iff.2 ⟨hlo, hhi⟩))

/-- Settles O16: the divider lies from 0xFEA0 up, where WR6 decides the write and RD4 the read. -/
theorem writeToDividerStoresZero : Obligations.WriteToDividerStoresZero := by
  unfold Obligations.WriteToDividerStoresZero
  intro s v hc hm
  obtain ⟨hd, -⟩ := configValid_ranges hc
  have hw : memWrite s s.cfg.divAddr v = s.setByte s.cfg.divAddr 0x00 := by
    rw [memWrite_high (by bv_omega), if_pos rfl]
  obtain ⟨t, he, hz, hframe, hout⟩ := exec_write_of_setByte hm hw
  refine ⟨t, he, hz, hframe, hout, ?_⟩
  rw [exec_read, memRead_high (by bv_omega), hz]
  rfl

/-! ### The write to the first byte of video RAM -/

/-- Settles O11: 0x8000 is the one address that WR1 sends to the cartridge and RD4 reads from AddressSpace. -/
theorem writeToFirstVideoByteIsLost : Obligations.WriteToFirstVideoByteIsLost := by
  unfold Obligations.WriteToFirstVideoByteIsLost
  intro s v
  have hw : memWrite s 0x8000 v = s.withCart (Config.cartWrite s.cart 0x8000 v) :=
    memWrite_cart (.inl (by decide))
  refine ⟨(s.withCart (Config.cartWrite s.cart 0x8000 v)).respond none, ?_, rfl, fun b => rfl, ?_⟩
  · rw [exec_write, hw]
  · rw [exec_read, memRead_videoRam (by decide) (by decide)]
    rfl

end Sys2Proof.Machine

/-! PROOFS. The family 42_dma.md: a busy engine locks nothing (R167). -/

namespace Sys2Proof.Machine

variable {s t u : State} {i : Instr} {r : Refusal} {k : Nat}

/-! ### What a refusal depends on -/

theorem withBit_refused :
    withBit k (.next t) = .refused r ↔ ¬k ≤ 4 ∧ .noSuchCommand (.bitIndexAboveFour k) = r := by
  unfold withBit
  by_cases h : k ≤ 4 <;> simp [bitAdmitted, h]

/-- Only the bit index decides a refusal, so another next state is refused alike. -/
theorem withBit_refused_congr (h : withBit k (.next t) = .refused r) : withBit k (.next u) = .refused r :=
  withBit_refused.2 (withBit_refused.1 h)

/-- A command refused in one state is refused in every state, for the same reason (60_exceptions.md R182). -/
theorem exec_refused_congr (u : State) (h : exec i s = .refused r) : exec i u = .refused r := by
  cases i with
  | step => exact absurd h nofun
  | read a => exact absurd h nofun
  | write a v => exact absurd h nofun
  | dma a => exact absurd h nofun
  | ietest k => exact withBit_refused_congr h
  | iftest k => exact withBit_refused_congr h
  | ifset k => exact withBit_refused_congr h
  | ifclr k => exact withBit_refused_congr h

/-! ### What carries the DMA state along -/

theorem State.withDma_withDma (s : State) (d e : Dma) : (s.withDma d).withDma e = s.withDma e := rfl

theorem State.withDma_withMem (s : State) (d : Dma) (m : Memory) :
    (s.withDma d).withMem m = (s.withMem m).withDma d := rfl

theorem withBit_withDma (d : Dma) (h : withBit k (.next u) = .next t) :
    withBit k (.next (u.withDma d)) = .next (t.withDma d) := by
  obtain ⟨hk, e⟩ := withBit_next.1 h
  obtain rfl := Host.Outcome.next.inj e
  exact withBit_admitted hk

/-- A command other than the engine's own two reads no DMA state and carries it along. -/
theorem exec_withDma (d : Dma) (hstep : i ≠ .step) (hdma : ∀ a, i ≠ .dma a) (h : exec i s = .next t) :
    exec i (s.withDma d) = .next (t.withDma d) := by
  cases i with
  | step => exact absurd rfl hstep
  | dma a => exact absurd rfl (hdma a)
  | read a =>
    obtain rfl := Host.Outcome.next.inj h
    rw [exec_read, State.withDma_memRead]
    rfl
  | write a v =>
    obtain rfl := Host.Outcome.next.inj h
    rw [exec_write, memWrite_withDma]
    rfl
  | ietest k => exact withBit_withDma d h
  | iftest k => exact withBit_withDma d h
  | ifset k => exact withBit_withDma d h
  | ifclr k => exact withBit_withDma d h

theorem dmaCopy_withDma (s : State) (d : Dma) (start : Addr) :
    dmaCopy (s.withDma d) start = (dmaCopy s start).withDma d := by
  unfold dmaCopy
  rw [dmaBuffer_congr (State.withDma_memRead s d), State.withDma_mem, State.withDma_withMem]

/-- DMA restarts the window whatever the engine did before (42_dma.md R160). -/
theorem exec_dma_withDma (s : State) (d : Dma) (start : Addr) :
    exec (.dma start) (s.withDma d) = exec (.dma start) s := by
  rw [exec_dma, exec_dma, dmaCopy_withDma, State.withDma_withDma]

/-- Settles O36: commands carry the DMA state along, refusals look at no state, and DMA overwrites it. -/
theorem busyLocksNothing : Obligations.BusyLocksNothing := by
  unfold Obligations.BusyLocksNothing
  intro s d
  refine ⟨?next, ?refused, ?dma⟩
  case next => exact fun i t hstep hdma h => exec_withDma d hstep hdma h
  case refused => exact fun i r h => exec_refused_congr _ h
  case dma => exact exec_dma_withDma s d

end Sys2Proof.Machine

/-! PROOFS. The family 60_exceptions.md: no command raises an error (R180). -/

namespace Sys2Proof.Machine

variable {k : Nat} {t : State}

theorem withBit_next_ne_fault (f : Fault) : withBit k (.next t) ≠ .fault f := by
  by_cases hk : k ≤ 4
  · rw [withBit_admitted hk]
    exact nofun
  · rw [withBit_refused.2 ⟨hk, rfl⟩]
    exact nofun

/-- A command's only outcomes are a next state and the refusal of a bit index. -/
theorem exec_ne_fault (i : Instr) (s : State) (f : Fault) : exec i s ≠ .fault f := by
  cases i with
  | step => exact nofun
  | read a => exact nofun
  | write a v => exact nofun
  | dma a => exact nofun
  | ietest k => exact withBit_next_ne_fault f
  | iftest k => exact withBit_next_ne_fault f
  | ifset k => exact withBit_next_ne_fault f
  | ifclr k => exact withBit_next_ne_fault f

/-- A word that spells no command is refused, which is no fault either. -/
theorem runWord_ne_fault (w : CmdWord) (s : State) (f : Fault) : runWord w s ≠ .fault f := by
  unfold runWord
  split
  · exact exec_ne_fault _ s f
  · exact nofun

theorem step_ne_fault (s : State) (f : Fault) : step s ≠ .fault f := by
  unfold step
  split
  · exact nofun
  · exact runWord_ne_fault _ _ f

/-- Settles O44: a fault arises in no arm of `exec`, and `step` adds only an idle step and the refusal of a word. -/
theorem noCommandFaults : Obligations.NoCommandFaults := by
  unfold Obligations.NoCommandFaults
  exact ⟨exec_ne_fault, step_ne_fault⟩

end Sys2Proof.Machine

/-! PROOFS. The family 70_reset_and_hazards.md: the first READ of 0x0000 after init, without a boot image (R201) and with
one (R202). -/

namespace Sys2Proof.Machine

/-! ### What the read decoder answers for 0x0000 in the state init builds -/

/-- Without an image the boot-control byte is 0x01, so the overlay is off and the cartridge answers. -/
theorem initialState_none_memRead_zero (cfg : Config) (c : CartState) :
    memRead (initialState cfg .none c) 0x0000 = Config.cartRead c 0x0000 := by
  have hoff : (initialState cfg .none c).overlayActive = false :=
    overlayActive_eq_false_iff.2 ((initialState_byteAt_bootCtrl cfg .none c).trans_ne (by decide))
  exact memRead_rom (by decide) (.inr hoff)

/-- The overlay's first byte is the image's, or the pad byte 0x00 if the image is empty (10_state.md R43). -/
theorem initialState_bytes_overlayAt_zero (cfg : Config) (b : List Byte) (c : CartState) :
    (initialState cfg (.bytes b) c).overlayAt 0x00 = b.headD 0x00 := by
  cases b with
  | nil => rfl
  | cons x xs =>
    exact Memory.readByte_storeBytes_inside (base := 0) (k := 0) (vs := (x :: xs).take Config.overlaySize)
      (size := Config.overlaySize) rfl (by simp) (by simp)

/-- With an image the boot-control byte is 0x00, so the overlay is on and answers. -/
theorem initialState_bytes_memRead_zero (cfg : Config) (b : List Byte) (c : CartState) :
    memRead (initialState cfg (.bytes b) c) 0x0000 = b.headD 0x00 := by
  have hon : (initialState cfg (.bytes b) c).overlayActive = true :=
    overlayActive_iff.2 (initialState_byteAt_bootCtrl cfg (.bytes b) c)
  rw [memRead_overlay (by decide) hon]
  exact initialState_bytes_overlayAt_zero cfg b c

/-! ### The first READ -/

/-- After init READ 0x0000 answers what the read decoder answers in `initialState`. -/
theorem initFrom_bootCtrl_firstRead {cfg : Config} {img : BootImage} {c : CartState} {v : Byte}
    (hc : configValid cfg = true) (hi : img ≠ .unreadable) (hv : memRead (initialState cfg img c) 0x0000 = v) :
    ∃ t, initFrom cfg img (.ok c) = .next t ∧ t.byteAt cfg.bootCtrlAddr = bootCtrlOf img ∧
      exec (.read 0x0000) t = .next { t with response := some v } := by
  refine ⟨initialState cfg img c, initFrom_ok hc hi c, initialState_byteAt_bootCtrl cfg img c, ?_⟩
  rw [exec_read, hv]
  rfl

/-- Settles O50: init without an image leaves the overlay off, so the cartridge answers. -/
theorem firstReadWithoutBootImageIsTheCartridges : Obligations.FirstReadWithoutBootImageIsTheCartridges := by
  unfold Obligations.FirstReadWithoutBootImageIsTheCartridges
  exact fun cfg c hc => initFrom_bootCtrl_firstRead hc nofun (initialState_none_memRead_zero cfg c)

/-- Settles O51: init with an image leaves the overlay on, so the image's first byte answers. -/
theorem firstReadWithBootImageIsTheImages : Obligations.FirstReadWithBootImageIsTheImages := by
  unfold Obligations.FirstReadWithBootImageIsTheImages
  exact fun cfg c b hc => initFrom_bootCtrl_firstRead hc nofun (initialState_bytes_memRead_zero cfg b c)

end Sys2Proof.Machine

/-! PROOFS. The statements about the encoding: decoder and encoder are inverse (30_encoding.md R98), and the decoder
against the opcode map as match and mask (R93) and against the list of malformed words (R95). -/

namespace Sys2Proof

variable {op rsv : BitVec 4} {addr am : Addr} {data dm : Byte} {w : CmdWord} {i : Instr} {name : String} {lim : Bool}

/-! ### The opcode map, row by row -/

theorem decodeFields_step :
    decodeFields 0x0 0 addr data = requireZeroAddr addr (requireZeroData data (.ok .step)) := rfl
theorem decodeFields_read : decodeFields 0x1 0 addr data = requireZeroData data (.ok (.read addr)) := rfl
theorem decodeFields_write : decodeFields 0x2 0 addr data = .ok (.write addr data) := rfl
theorem decodeFields_ietest : decodeFields 0x3 0 addr data = decodeBit addr data .ietest := rfl
theorem decodeFields_iftest : decodeFields 0x4 0 addr data = decodeBit addr data .iftest := rfl
theorem decodeFields_ifset : decodeFields 0x5 0 addr data = decodeBit addr data .ifset := rfl
theorem decodeFields_ifclr : decodeFields 0x6 0 addr data = decodeBit addr data .ifclr := rfl
theorem decodeFields_dma : decodeFields 0x7 0 addr data = requireZeroData data (.ok (.dma addr)) := rfl

theorem decodeFields_reservedOpcode (h : 8 ≤ op.toNat) :
    decodeFields op rsv addr data = .error (.reservedOpcode op) := if_pos h

theorem decodeFields_reservedField (ho : ¬8 ≤ op.toNat) (hr : rsv ≠ 0) :
    decodeFields op rsv addr data = .error (.reservedField rsv) := by
  unfold decodeFields
  rw [if_neg ho, if_pos hr]

/-- The eight OP values that are not reserved. -/
theorem opcode_cases (h : ¬8 ≤ op.toNat) :
    op = 0x0 ∨ op = 0x1 ∨ op = 0x2 ∨ op = 0x3 ∨ op = 0x4 ∨ op = 0x5 ∨ op = 0x6 ∨ op = 0x7 := by
  bv_omega

/-! ### Decode and encode agree -/

/-- A bit command's operand that is at most 4 fits its field. -/
theorem decodeBit_ofNat {bit : Nat} {mk : Nat → Instr} (h : bitAdmitted bit = true) :
    decodeBit 0 (BitVec.ofNat 8 bit) mk = .ok (mk bit) := by
  have hb : bit ≤ 4 := of_decide_eq_true h
  have hn : (BitVec.ofNat 8 bit).toNat = bit := by
    rw [BitVec.toNat_ofNat]
    omega
  rw [decodeBit_ok, hn]
  exact ⟨rfl, hb, rfl⟩

theorem decodeFields_of_wf (h : i.wf = true) : decodeFields i.opcode 0 i.addrOperand i.dataOperand = .ok i := by
  cases i with
  | step => rfl
  | read a => rfl
  | write a v => rfl
  | ietest bit => exact decodeBit_ofNat h
  | iftest bit => exact decodeBit_ofNat h
  | ifset bit => exact decodeBit_ofNat h
  | ifclr bit => exact decodeBit_ofNat h
  | dma a => rfl

/-- The fields are those of a well-formed command: what an accepted word says of each of its fields. -/
def FieldsOf (i : Instr) (op rsv : BitVec 4) (addr : Addr) (data : Byte) : Prop :=
  op = i.opcode ∧ rsv = 0 ∧ addr = i.addrOperand ∧ data = i.dataOperand ∧ i.wf = true

/-- A bit command is the one its DATA field numbers. -/
theorem fieldsOf_decodeBit {mk : Nat → Instr} (h : decodeBit addr data mk = .ok i)
    (hmk : ∀ bit, (mk bit).opcode = op ∧ (mk bit).addrOperand = 0 ∧
      (mk bit).dataOperand = BitVec.ofNat 8 bit ∧ (mk bit).wf = bitAdmitted bit) :
    FieldsOf i op 0 addr data := by
  obtain ⟨ha, hd, rfl⟩ := decodeBit_ok.1 h
  obtain ⟨hop, haddr, hdata, hwf⟩ := hmk data.toNat
  refine ⟨hop.symm, rfl, ha.trans haddr.symm, ?_, hwf.trans (decide_eq_true hd)⟩
  rw [hdata, BitVec.ofNat_toNat, BitVec.setWidth_eq]

theorem fieldsOf_decodeFields (h : decodeFields op rsv addr data = .ok i) : FieldsOf i op rsv addr data := by
  by_cases ho : 8 ≤ op.toNat
  · rw [decodeFields_reservedOpcode ho] at h
    cases h
  by_cases hr : rsv = 0
  case neg =>
    rw [decodeFields_reservedField ho hr] at h
    cases h
  subst hr
  obtain rfl | rfl | rfl | rfl | rfl | rfl | rfl | rfl := opcode_cases ho
  · obtain ⟨ha, h⟩ := requireZeroAddr_ok.1 h
    obtain ⟨hd, h⟩ := requireZeroData_ok.1 h
    cases h
    exact ⟨rfl, rfl, ha, hd, rfl⟩
  · obtain ⟨hd, h⟩ := requireZeroData_ok.1 h
    cases h
    exact ⟨rfl, rfl, rfl, hd, rfl⟩
  · cases h
    exact ⟨rfl, rfl, rfl, rfl, rfl⟩
  · exact fieldsOf_decodeBit (mk := .ietest) h fun bit => ⟨rfl, rfl, rfl, rfl⟩
  · exact fieldsOf_decodeBit (mk := .iftest) h fun bit => ⟨rfl, rfl, rfl, rfl⟩
  · exact fieldsOf_decodeBit (mk := .ifset) h fun bit => ⟨rfl, rfl, rfl, rfl⟩
  · exact fieldsOf_decodeBit (mk := .ifclr) h fun bit => ⟨rfl, rfl, rfl, rfl⟩
  · obtain ⟨hd, h⟩ := requireZeroData_ok.1 h
    cases h
    exact ⟨rfl, rfl, rfl, hd, rfl⟩

/-- The opcode map accepts exactly the fields of well-formed commands. -/
theorem decodeFields_ok_iff : decodeFields op rsv addr data = .ok i ↔ FieldsOf i op rsv addr data := by
  refine ⟨fieldsOf_decodeFields, ?_⟩
  rintro ⟨rfl, rfl, rfl, rfl, hwf⟩
  exact decodeFields_of_wf hwf

theorem decode_ok_iff_fields :
    decode w = .ok i ↔ FieldsOf i (opField w) (rsvField w) (addrField w) (dataField w) := decodeFields_ok_iff

theorem decode_encode (h : i.wf = true) : decode (encode i) = .ok i :=
  (decode_encode_fields i).trans (decodeFields_of_wf h)

theorem wf_of_decode (h : decode w = .ok i) : i.wf = true := by
  obtain ⟨-, -, -, -, hwf⟩ := decode_ok_iff_fields.1 h
  exact hwf

theorem encode_of_decode (h : decode w = .ok i) : encode i = w := by
  obtain ⟨ho, hr, ha, hd, -⟩ := decode_ok_iff_fields.1 h
  rw [encode, ← ho, ← hr, ← ha, ← hd, joinFields_fields]

/-- Settles O2: the opcode map on a well-formed command's own fields gives the command back. -/
theorem decodeOfEncodedCommand : Obligations.DecodeOfEncodedCommand := by
  unfold Obligations.DecodeOfEncodedCommand
  exact fun i => decode_encode

/-- Settles O3: an accepted word's fields are the command's, and a word is its fields. -/
theorem encodeOfDecodedWord : Obligations.EncodeOfDecodedWord := by
  unfold Obligations.EncodeOfDecodedWord
  exact fun w i h => ⟨wf_of_decode h, encode_of_decode h⟩

/-! ### The opcode map as match and mask (30_encoding.md R93) -/

/-- The row of an OP: OP and RSV count whole, and `am` and `dm` mark the bits of ADDR and DATA that must be zero. -/
def fieldRow (name : String) (op : BitVec 4) (am : Addr) (dm : Byte) (lim : Bool) : OpcodeRow :=
  ⟨name, joinFields op 0 0 0, joinFields 0xF 0xF am dm, lim⟩

theorem opcodeRows_eq : opcodeRows =
    [fieldRow "STEP" 0x0 0xFFFF 0xFF false, fieldRow "READ" 0x1 0 0xFF false, fieldRow "WRITE" 0x2 0 0 false,
     fieldRow "IETEST" 0x3 0xFFFF 0xF8 true, fieldRow "IFTEST" 0x4 0xFFFF 0xF8 true,
     fieldRow "IFSET" 0x5 0xFFFF 0xF8 true, fieldRow "IFCLR" 0x6 0xFFFF 0xF8 true,
     fieldRow "DMA" 0x7 0 0xFF false] := by decide

theorem toNat_lowBits : (w.extractLsb' 0 3).toNat = (dataField w).toNat % 8 := by
  simp only [dataField, BitVec.extractLsb'_toNat, Nat.shiftRight_zero]
  omega

theorem fieldRow_spells : (fieldRow name op am dm lim).spells w = true ↔
    opField w = op ∧ rsvField w = 0 ∧ addrField w &&& am = 0 ∧ dataField w &&& dm = 0 ∧
      (lim = true → (dataField w).toNat % 8 ≤ 4) := by
  have hones (x : BitVec 4) : x &&& 0xF = x := BitVec.and_allOnes
  have hw : w &&& joinFields 0xF 0xF am dm =
      joinFields (opField w) (rsvField w) (addrField w &&& am) (dataField w &&& dm) := by
    conv_lhs => rw [← joinFields_fields (w := w), and_joinFields, hones, hones]
  simp only [OpcodeRow.spells, fieldRow, hw, toNat_lowBits, Bool.and_eq_true, beq_iff_eq, joinFields_inj,
    Bool.or_eq_true, Bool.not_eq_true', decide_eq_true_eq, and_assoc]
  cases lim <;> simp

/-- A bit index: the five high bits of DATA are zero and the three low ones spell at most 4. -/
theorem bitIndex_iff : (data &&& 0xF8 = 0 ∧ data.toNat % 8 ≤ 4) ↔ data.toNat ≤ 4 := by
  revert data
  decide

/-- The row of the opcode map that stands for a command. -/
def Instr.row : Instr → OpcodeRow
  | .step => fieldRow "STEP" 0x0 0xFFFF 0xFF false
  | .read _ => fieldRow "READ" 0x1 0 0xFF false
  | .write _ _ => fieldRow "WRITE" 0x2 0 0 false
  | .ietest _ => fieldRow "IETEST" 0x3 0xFFFF 0xF8 true
  | .iftest _ => fieldRow "IFTEST" 0x4 0xFFFF 0xF8 true
  | .ifset _ => fieldRow "IFSET" 0x5 0xFFFF 0xF8 true
  | .ifclr _ => fieldRow "IFCLR" 0x6 0xFFFF 0xF8 true
  | .dma _ => fieldRow "DMA" 0x7 0 0xFF false

theorem Instr.row_mem (i : Instr) : i.row ∈ opcodeRows := by
  rw [opcodeRows_eq]
  cases i <;> simp [Instr.row]

theorem Instr.row_mnemonic (i : Instr) : i.row.mnemonic = i.mnemonic := by
  cases i <;> rfl

/-- A bit command's row spells the words whose DATA is an admitted bit index. -/
theorem bitRow_spells : (fieldRow name op 0xFFFF 0xF8 true).spells w = true ↔
    opField w = op ∧ rsvField w = 0 ∧ addrField w = 0 ∧ (dataField w).toNat ≤ 4 := by
  have hones (x : Addr) : x &&& 0xFFFF = x := BitVec.and_allOnes
  rw [fieldRow_spells, hones, ← bitIndex_iff]
  simp

/-- The row of a command without a data operand spells the words whose DATA is zero. -/
theorem addrRow_spells : (fieldRow name op am 0xFF false).spells w = true ↔
    opField w = op ∧ rsvField w = 0 ∧ addrField w &&& am = 0 ∧ dataField w = 0 := by
  have hones (x : Byte) : x &&& 0xFF = x := BitVec.and_allOnes
  rw [fieldRow_spells, hones]
  simp

/-- The row of an accepted word's command spells the word. -/
theorem row_spells_of_decode (h : decode w = .ok i) : i.row.spells w = true := by
  obtain ⟨ho, hr, ha, hd, hwf⟩ := decode_ok_iff_fields.1 h
  have hbit {bit : Nat} (hb : bitAdmitted bit = true) (hdata : dataField w = BitVec.ofNat 8 bit) :
      (dataField w).toNat ≤ 4 := by
    have : bit ≤ 4 := of_decide_eq_true hb
    rw [hdata, BitVec.toNat_ofNat]
    omega
  cases i with
  | step => exact addrRow_spells.2 ⟨ho, hr, by rw [ha]; rfl, hd⟩
  | read a => exact addrRow_spells.2 ⟨ho, hr, BitVec.and_zero, hd⟩
  | write a v => exact fieldRow_spells.2 ⟨ho, hr, BitVec.and_zero, BitVec.and_zero, nofun⟩
  | ietest bit => exact bitRow_spells.2 ⟨ho, hr, ha, hbit hwf hd⟩
  | iftest bit => exact bitRow_spells.2 ⟨ho, hr, ha, hbit hwf hd⟩
  | ifset bit => exact bitRow_spells.2 ⟨ho, hr, ha, hbit hwf hd⟩
  | ifclr bit => exact bitRow_spells.2 ⟨ho, hr, ha, hbit hwf hd⟩
  | dma a => exact addrRow_spells.2 ⟨ho, hr, BitVec.and_zero, hd⟩

/-- A word that a bit command's row spells decodes to that bit command. -/
theorem decode_of_bitRow {mk : Nat → Instr} (h : (fieldRow name op 0xFFFF 0xF8 true).spells w = true)
    (hmk : ∀ addr data, decodeFields op 0 addr data = decodeBit addr data mk) :
    decode w = .ok (mk (dataField w).toNat) := by
  obtain ⟨ho, hr, ha, hd⟩ := bitRow_spells.1 h
  rw [decode, ho, hr, hmk]
  exact decodeBit_ok.2 ⟨ha, hd, rfl⟩

/-- A word that a row spells decodes to a command of that row. -/
theorem decode_of_spells {r : OpcodeRow} (hr : r ∈ opcodeRows) (h : r.spells w = true) :
    ∃ i, decode w = .ok i ∧ i.row = r := by
  have hones (x : Addr) : x &&& 0xFFFF = x := BitVec.and_allOnes
  rw [opcodeRows_eq] at hr
  simp only [List.mem_cons, List.not_mem_nil, or_false] at hr
  obtain rfl | rfl | rfl | rfl | rfl | rfl | rfl | rfl := hr
  · obtain ⟨ho, hr, ha, hd⟩ := addrRow_spells.1 h
    exact ⟨.step, decode_ok_iff_fields.2 ⟨ho, hr, (hones _).symm.trans ha, hd, rfl⟩, rfl⟩
  · obtain ⟨ho, hr, -, hd⟩ := addrRow_spells.1 h
    exact ⟨.read (addrField w), decode_ok_iff_fields.2 ⟨ho, hr, rfl, hd, rfl⟩, rfl⟩
  · obtain ⟨ho, hr, -⟩ := fieldRow_spells.1 h
    exact ⟨.write (addrField w) (dataField w), decode_ok_iff_fields.2 ⟨ho, hr, rfl, rfl, rfl⟩, rfl⟩
  · exact ⟨.ietest (dataField w).toNat, decode_of_bitRow h fun _ _ => rfl, rfl⟩
  · exact ⟨.iftest (dataField w).toNat, decode_of_bitRow h fun _ _ => rfl, rfl⟩
  · exact ⟨.ifset (dataField w).toNat, decode_of_bitRow h fun _ _ => rfl, rfl⟩
  · exact ⟨.ifclr (dataField w).toNat, decode_of_bitRow h fun _ _ => rfl, rfl⟩
  · obtain ⟨ho, hr, -, hd⟩ := addrRow_spells.1 h
    exact ⟨.dma (addrField w), decode_ok_iff_fields.2 ⟨ho, hr, rfl, hd, rfl⟩, rfl⟩

/-- Settles O4: the rows and the accepted words correspond by `row_spells_of_decode` and `decode_of_spells`, and a word
decodes to one command, which has one row. -/
theorem decoderAcceptsExactlyTheOpcodeTable : Obligations.DecoderAcceptsExactlyTheOpcodeTable := by
  unfold Obligations.DecoderAcceptsExactlyTheOpcodeTable
  refine ⟨fun w => ⟨?accepted, ?spelled⟩, ?mnemonic, ?disjoint⟩
  case accepted =>
    rintro ⟨i, h⟩
    exact ⟨i.row, i.row_mem, row_spells_of_decode h⟩
  case spelled =>
    rintro ⟨r, hr, h⟩
    obtain ⟨i, hi, -⟩ := decode_of_spells hr h
    exact ⟨i, hi⟩
  case mnemonic => exact fun w i h => ⟨i.row, i.row_mem, row_spells_of_decode h, i.row_mnemonic⟩
  case disjoint =>
    intro w r hr r' hr' h h'
    obtain ⟨i, hi, rfl⟩ := decode_of_spells hr h
    obtain ⟨j, hj, rfl⟩ := decode_of_spells hr' h'
    obtain rfl : i = j := by
      rw [hi] at hj
      exact Except.ok.inj hj
    rfl

/-! ### The malformed words (30_encoding.md R95) -/

theorem requireZeroAddr_error {k : Except DecodeError Instr} :
    (∃ e, requireZeroAddr addr k = .error e) ↔ addr ≠ 0 ∨ ∃ e, k = .error e := by
  unfold requireZeroAddr
  by_cases h : addr = 0
  · rw [if_pos h]
    exact ⟨.inr, fun hk => hk.resolve_left (absurd h)⟩
  · rw [if_neg h]
    exact ⟨fun _ => .inl h, fun _ => ⟨_, rfl⟩⟩

theorem requireZeroData_error {k : Except DecodeError Instr} :
    (∃ e, requireZeroData data k = .error e) ↔ data ≠ 0 ∨ ∃ e, k = .error e := by
  unfold requireZeroData
  by_cases h : data = 0
  · rw [if_pos h]
    exact ⟨.inr, fun hk => hk.resolve_left (absurd h)⟩
  · rw [if_neg h]
    exact ⟨fun _ => .inl h, fun _ => ⟨_, rfl⟩⟩

theorem decodeBit_error {mk : Nat → Instr} :
    (∃ e, decodeBit addr data mk = .error e) ↔ addr ≠ 0 ∨ 4 < data.toNat := by
  unfold decodeBit
  rw [requireZeroAddr_error]
  by_cases h : data.toNat ≤ 4
  · simp [bitAdmitted, h]
  · simp [bitAdmitted, h, Nat.lt_of_not_le h]

/-- R95's list is complete and names no accepted word. -/
theorem decode_error_iff : (∃ e, decode w = .error e) ↔ Machine.SpellsNoCommand w := by
  unfold decode Machine.SpellsNoCommand
  generalize opField w = op, rsvField w = rsv, addrField w = addr, dataField w = data
  by_cases ho : 8 ≤ op.toNat
  · rw [decodeFields_reservedOpcode ho]
    exact ⟨fun _ => .inl ho, fun _ => ⟨_, rfl⟩⟩
  by_cases hr : rsv = 0
  case neg =>
    rw [decodeFields_reservedField ho hr]
    exact ⟨fun _ => .inr (.inl hr), fun _ => ⟨_, rfl⟩⟩
  subst hr
  obtain rfl | rfl | rfl | rfl | rfl | rfl | rfl | rfl := opcode_cases ho
  · rw [decodeFields_step, requireZeroAddr_error, requireZeroData_error]
    simp
  · rw [decodeFields_read, requireZeroData_error]
    simp
  · rw [decodeFields_write]
    simp
  · rw [decodeFields_ietest, decodeBit_error]
    simp
  · rw [decodeFields_iftest, decodeBit_error]
    simp
  · rw [decodeFields_ifset, decodeBit_error]
    simp
  · rw [decodeFields_ifclr, decodeBit_error]
    simp
  · rw [decodeFields_dma, requireZeroData_error]
    simp

theorem not_spellsNoCommand_iff : ¬Machine.SpellsNoCommand w ↔ ∃ i, decode w = .ok i := by
  rw [← decode_error_iff]
  cases decode w with
  | ok i => exact ⟨fun _ => ⟨i, rfl⟩, fun _ => nofun⟩
  | error e => exact ⟨fun h => absurd ⟨e, rfl⟩ h, nofun⟩

/-- Settles O1: each word evaluates to its command, or to the first reason of R95's list. -/
theorem specWordsDecodeToTheirCommands : Obligations.SpecWordsDecodeToTheirCommands := by
  unfold Obligations.SpecWordsDecodeToTheirCommands
  decide

end Sys2Proof


/-! PROOFS. The statements about a step and about the host's session: the oldest word runs, a malformed one is refused
(30_encoding.md R95; 60_exceptions.md R182), and the refusal mark stays (log 3). -/

namespace Sys2Proof.Machine

variable {s t : State} {w : CmdWord} {ws : List CmdWord} {i : Instr} {e : DecodeError} {k : Nat}

/-! ### What a word on the command port does -/

theorem step_idle (h : s.commands = []) : step s = .next s := by
  unfold step
  rw [h]

theorem step_waiting (h : s.commands = w :: ws) : step s = runWord w (s.withCommands ws) := by
  unfold step
  rw [h]

theorem runWord_of_decode (h : decode w = .ok i) : runWord w s = exec i s := by
  unfold runWord
  rw [h]

theorem runWord_of_malformed (h : decode w = .error e) : runWord w s = .refused (.noSuchCommand e) := by
  unfold runWord
  rw [h]

/-- Settles O6: the decoded word runs in the state without it. -/
theorem stepRunsTheDecodedCommand : Obligations.StepRunsTheDecodedCommand := by
  unfold Obligations.StepRunsTheDecodedCommand
  intro s w ws i hw hi
  rw [step_waiting hw, runWord_of_decode hi]
  rfl

/-- Settles O7: with an empty command port a step answers its own state. -/
theorem idleStepChangesNothing : Obligations.IdleStepChangesNothing := by
  unfold Obligations.IdleStepChangesNothing
  exact fun s => step_idle

/-! ### Which commands complete -/

theorem withBit_completes_iff : (∃ u, withBit k (.next t) = .next u) ↔ bitAdmitted k = true := by
  constructor
  · rintro ⟨u, h⟩
    exact decide_eq_true (withBit_next.1 h).1
  · exact fun h => ⟨t, withBit_admitted (of_decide_eq_true h)⟩

/-- A command completes exactly when its operands are admitted, in whatever state. -/
theorem exec_completes_iff (i : Instr) (s : State) : (∃ t, exec i s = .next t) ↔ i.wf = true := by
  cases i with
  | step => exact ⟨fun _ => rfl, fun _ => ⟨_, rfl⟩⟩
  | read a => exact ⟨fun _ => rfl, fun _ => ⟨_, rfl⟩⟩
  | write a v => exact ⟨fun _ => rfl, fun _ => ⟨_, rfl⟩⟩
  | ietest k => exact withBit_completes_iff
  | iftest k => exact withBit_completes_iff
  | ifset k => exact withBit_completes_iff
  | ifclr k => exact withBit_completes_iff
  | dma a => exact ⟨fun _ => rfl, fun _ => ⟨_, rfl⟩⟩

/-- Settles O45: only the bit index decides whether a command completes. -/
theorem admittedCommandsComplete : Obligations.AdmittedCommandsComplete := by
  unfold Obligations.AdmittedCommandsComplete
  exact exec_completes_iff

/-- Settles O26: the four accessors share `withBit`, which refuses the index by name. -/
theorem bitIndexAboveFourIsRefused : Obligations.BitIndexAboveFourIsRefused := by
  unfold Obligations.BitIndexAboveFourIsRefused
  intro s bit h
  have hrefused (u : State) : withBit bit (.next u) = .refused (.noSuchCommand (.bitIndexAboveFour bit)) :=
    withBit_refused.2 ⟨Nat.not_le.2 h, rfl⟩
  exact ⟨hrefused _, hrefused _, hrefused _, hrefused _⟩

/-- A word that spells a command completes. -/
theorem runWord_completes (s : State) (h : ¬SpellsNoCommand w) : ∃ t, runWord w s = .next t := by
  obtain ⟨i, hi⟩ := not_spellsNoCommand_iff.1 h
  rw [runWord_of_decode hi]
  exact (exec_completes_iff i s).2 (wf_of_decode hi)

/-- A word is refused exactly when it is in one of R95's classes, in whatever state. -/
theorem runWord_refused_iff : (∃ r, runWord w s = .refused r) ↔ SpellsNoCommand w := by
  constructor
  · rintro ⟨r, hr⟩
    by_contra h
    obtain ⟨t, ht⟩ := runWord_completes s h
    rw [ht] at hr
    cases hr
  · intro h
    obtain ⟨e, he⟩ := decode_error_iff.2 h
    exact ⟨_, runWord_of_malformed he⟩

/-- Settles O5: a waiting word is refused exactly when it is malformed. -/
theorem stepRefusesExactlyTheWordsThatSpellNoCommand :
    Obligations.StepRefusesExactlyTheWordsThatSpellNoCommand := by
  unfold Obligations.StepRefusesExactlyTheWordsThatSpellNoCommand
  intro s w ws hw
  rw [step_waiting hw]
  exact runWord_refused_iff

/-! ### The session's refusal mark -/

variable {x : Session} {r q : Refusal}

theorem Session.refuse_mark : (x.refuse q).refusalMark = some (x.refusalMark.getD q) := by
  unfold Session.refuse
  cases x.refusalMark <;> rfl

theorem Session.refuse_keeps_mark (h : x.refusalMark = some r) : (x.refuse q).refusalMark = some r := by
  rw [Session.refuse_mark, h]
  rfl

theorem Session.issue_without_block (h : x.block = none) : x.issue w = x.refuse .noState := by
  unfold Session.issue
  rw [h]

theorem Session.issue_with_block (h : x.block = some s) : x.issue w = x.settle (runWord w s) := by
  unfold Session.issue
  rw [h]

/-- A malformed word is recorded and leaves the block alone. -/
theorem Session.issue_malformed (h : x.block = some s) (hw : SpellsNoCommand w) :
    ∃ q, x.issue w = x.refuse q := by
  obtain ⟨q, hq⟩ := runWord_refused_iff.2 hw
  exact ⟨q, by rw [Session.issue_with_block h, hq]; rfl⟩

/-- An accepted word leaves a block and no mark. -/
theorem Session.issue_accepted (h : x.block = some s) (hw : ¬SpellsNoCommand w) :
    ∃ t, x.issue w = { x with block := some t, initError := none } := by
  obtain ⟨t, ht⟩ := runWord_completes s hw
  exact ⟨t, by rw [Session.issue_with_block h, ht]; rfl⟩

theorem Session.issue_keeps_mark (w : CmdWord) (h : x.refusalMark = some r) :
    (x.issue w).refusalMark = some r := by
  cases hb : x.block with
  | none =>
    rw [Session.issue_without_block hb]
    exact Session.refuse_keeps_mark h
  | some s =>
    by_cases hw : SpellsNoCommand w
    · obtain ⟨q, hq⟩ := Session.issue_malformed hb hw
      rw [hq]
      exact Session.refuse_keeps_mark h
    · obtain ⟨t, ht⟩ := Session.issue_accepted hb hw
      rw [ht]
      exact h

theorem Session.issueAll_keeps_mark (ws : List CmdWord) (h : x.refusalMark = some r) :
    (x.issueAll ws).refusalMark = some r := by
  induction ws generalizing x with
  | nil => exact h
  | cons w ws ih => exact ih (Session.issue_keeps_mark w h)

/-- Settles O53: a word without a block, a malformed word, an accepted word, and the mark over any further words. -/
theorem refusalMarkIsStickyAndStateKept : Obligations.RefusalMarkIsStickyAndStateKept := by
  unfold Obligations.RefusalMarkIsStickyAndStateKept
  refine ⟨?noBlock, ?malformed, ?accepted, fun x ws r h => Session.issueAll_keeps_mark ws h⟩
  case noBlock =>
    intro x w hb
    rw [Session.issue_without_block hb]
    exact ⟨hb, Session.refuse_mark⟩
  case malformed =>
    intro x s w hb hw
    obtain ⟨q, hq⟩ := Session.issue_malformed hb hw
    rw [hq, Session.refuse_mark]
    exact ⟨hb, rfl⟩
  case accepted =>
    intro x s w hb hw
    obtain ⟨t, ht⟩ := Session.issue_accepted hb hw
    rw [ht]
    exact ⟨rfl, rfl⟩

end Sys2Proof.Machine

/-! PROOFS. The statements about the assembler (30_encoding.md R97 to R99). -/

namespace Sys2Proof.Machine

variable {cfg : Config} {l : AsmLine} {is : List Instr} {a v b n : Nat}

/-! ### Every command of a line is admitted -/

/-- A form with one operand gives one command, admitted if the operand's check makes it so. -/
theorem wf_of_operand {α : Type} {o : Option α} {mk : α → Instr} (h : (o.map fun x => [mk x]) = some is)
    (hmk : ∀ x, o = some x → (mk x).wf = true) : ∀ i ∈ is, i.wf = true := by
  obtain ⟨x, hx, rfl⟩ := Option.map_eq_some_iff.1 h
  intro i hi
  obtain rfl := List.mem_singleton.1 hi
  exact hmk x hx

theorem bitAdmitted_of_asmBit {k : Nat} (h : asmBit b = some k) : bitAdmitted k = true := by
  unfold asmBit at h
  split at h
  · obtain rfl := Option.some.inj h
    assumption
  · cases h

theorem wf_of_replicate_step : ∀ i ∈ List.replicate n Instr.step, i.wf = true := by
  intro i hi
  rw [List.eq_of_mem_replicate hi]
  rfl

/-- Whatever the line, every command it stands for passed its operands' checks. -/
theorem wf_of_expand (h : l.expand cfg = some is) : ∀ i ∈ is, i.wf = true := by
  have hwrite {x : Addr} {y : Byte} (e : some [Instr.write x y] = some is) : ∀ i ∈ is, i.wf = true :=
    wf_of_operand (o := some y) (mk := .write x) e fun _ _ => rfl
  cases l with
  | step => exact wf_of_operand (o := some ()) (mk := fun _ => .step) h fun _ _ => rfl
  | read a => exact wf_of_operand (mk := .read) h fun _ _ => rfl
  | write a v =>
    obtain ⟨x, -, h⟩ := Option.bind_eq_some_iff.1 h
    exact wf_of_operand (mk := .write x) h fun _ _ => rfl
  | ietest b => exact wf_of_operand (mk := .ietest) h fun _ => bitAdmitted_of_asmBit
  | iftest b => exact wf_of_operand (mk := .iftest) h fun _ => bitAdmitted_of_asmBit
  | ifset b => exact wf_of_operand (mk := .ifset) h fun _ => bitAdmitted_of_asmBit
  | ifclr b => exact wf_of_operand (mk := .ifclr) h fun _ => bitAdmitted_of_asmBit
  | dma a => exact wf_of_operand (mk := .dma) h fun _ _ => rfl
  | stepn n =>
    obtain ⟨-, h⟩ := Option.ite_none_right_eq_some.1 h
    obtain rfl := Option.some.inj h
    exact wf_of_replicate_step
  | dmawait =>
    obtain rfl := Option.some.inj h
    exact wf_of_replicate_step
  | divreset => exact hwrite h
  | bootoff => exact hwrite h
  | iewrite v => exact wf_of_operand (mk := .write cfg.ieAddr) h fun _ _ => rfl
  | ifwrite v => exact wf_of_operand (mk := .write cfg.ifAddr) h fun _ _ => rfl

theorem assemble_of_expand (h : l.expand cfg = some is) : l.assemble cfg = some (is.map encode) := by
  unfold AsmLine.assemble
  rw [h]
  rfl

theorem assemble_of_expand_none (h : l.expand cfg = none) : l.assemble cfg = none := by
  unfold AsmLine.assemble
  rw [h]
  rfl

theorem decode_of_mem_assemble {ws : List CmdWord} (h : l.assemble cfg = some ws) :
    ∀ w ∈ ws, ∃ i, decode w = .ok i := by
  obtain ⟨is, his, rfl⟩ := Option.map_eq_some_iff.1 h
  intro w hw
  obtain ⟨i, hi, rfl⟩ := List.mem_map.1 hw
  exact ⟨i, decode_encode (wf_of_expand his i hi)⟩

/-! ### What each form expands to, in and out of range -/

theorem expand_read (h : a ≤ 0xFFFF) : AsmLine.expand cfg (.read a) = some [.read (BitVec.ofNat 16 a)] := by
  rw [AsmLine.expand, asmAddr_inRange h]
  rfl

theorem expand_dma (h : a ≤ 0xFFFF) : AsmLine.expand cfg (.dma a) = some [.dma (BitVec.ofNat 16 a)] := by
  rw [AsmLine.expand, asmAddr_inRange h]
  rfl

theorem expand_write (ha : a ≤ 0xFFFF) (hv : v ≤ 0xFF) :
    AsmLine.expand cfg (.write a v) = some [.write (BitVec.ofNat 16 a) (BitVec.ofNat 8 v)] := by
  rw [AsmLine.expand, asmAddr_inRange ha, asmByte_inRange hv]
  rfl

theorem expand_iewrite (h : v ≤ 0xFF) :
    AsmLine.expand cfg (.iewrite v) = some [.write cfg.ieAddr (BitVec.ofNat 8 v)] := by
  rw [AsmLine.expand, asmByte_inRange h]
  rfl

theorem expand_ifwrite (h : v ≤ 0xFF) :
    AsmLine.expand cfg (.ifwrite v) = some [.write cfg.ifAddr (BitVec.ofNat 8 v)] := by
  rw [AsmLine.expand, asmByte_inRange h]
  rfl

theorem expand_bits (h : b ≤ 4) :
    AsmLine.expand cfg (.ietest b) = some [.ietest b] ∧ AsmLine.expand cfg (.iftest b) = some [.iftest b] ∧
    AsmLine.expand cfg (.ifset b) = some [.ifset b] ∧ AsmLine.expand cfg (.ifclr b) = some [.ifclr b] := by
  simp only [AsmLine.expand, asmBit_inRange h, Option.map_some, and_self]

theorem expand_addr_outOfRange (h : 0xFFFF < a) :
    AsmLine.expand cfg (.read a) = none ∧ AsmLine.expand cfg (.dma a) = none ∧
    ∀ v, AsmLine.expand cfg (.write a v) = none := by
  simp only [AsmLine.expand, asmAddr_outOfRange h, Option.map_none, Option.bind_none, implies_true, and_self]

theorem expand_byte_outOfRange (h : 0xFF < v) :
    AsmLine.expand cfg (.iewrite v) = none ∧ AsmLine.expand cfg (.ifwrite v) = none ∧
    ∀ a, AsmLine.expand cfg (.write a v) = none := by
  simp only [AsmLine.expand, asmByte_outOfRange h, Option.map_none, Option.bind_fun_none, implies_true, and_self]

theorem expand_bit_outOfRange (h : 4 < b) :
    AsmLine.expand cfg (.ietest b) = none ∧ AsmLine.expand cfg (.iftest b) = none ∧
    AsmLine.expand cfg (.ifset b) = none ∧ AsmLine.expand cfg (.ifclr b) = none := by
  simp only [AsmLine.expand, asmBit_outOfRange h, Option.map_none, and_self]

/-- Settles O55: an assembled word encodes an admitted command, and an operand out of range expands to nothing. -/
theorem assembledWordsAreCommands : Obligations.AssembledWordsAreCommands := by
  unfold Obligations.AssembledWordsAreCommands
  refine ⟨fun cfg l ws => decode_of_mem_assemble, ?addr, ?byte, ?bit⟩
  case addr =>
    intro cfg a h
    obtain ⟨hread, hdma, hwrite⟩ := expand_addr_outOfRange (cfg := cfg) h
    exact ⟨assemble_of_expand_none hread, assemble_of_expand_none hdma,
      fun v => assemble_of_expand_none (hwrite v)⟩
  case byte =>
    intro cfg v h
    obtain ⟨hie, hif, hwrite⟩ := expand_byte_outOfRange (cfg := cfg) h
    exact ⟨assemble_of_expand_none hie, assemble_of_expand_none hif,
      fun a => assemble_of_expand_none (hwrite a)⟩
  case bit =>
    intro cfg b h
    obtain ⟨hiet, hift, hset, hclr⟩ := expand_bit_outOfRange (cfg := cfg) h
    exact ⟨assemble_of_expand_none hiet, assemble_of_expand_none hift, assemble_of_expand_none hset,
      assemble_of_expand_none hclr⟩

/-- Settles O56: each form in range expands to its command, whose word is `joinFields` of its fields. -/
theorem inRangeLinesAssembleToTheirFields : Obligations.InRangeLinesAssembleToTheirFields := by
  unfold Obligations.InRangeLinesAssembleToTheirFields
  intro cfg
  refine ⟨rfl, fun a ha => ⟨?read, ?dma, fun v hv => ?write⟩, fun b hb => ?bits⟩
  case read => exact assemble_of_expand (expand_read ha)
  case dma => exact assemble_of_expand (expand_dma ha)
  case write => exact assemble_of_expand (expand_write ha hv)
  case bits =>
    obtain ⟨hiet, hift, hset, hclr⟩ := expand_bits (cfg := cfg) hb
    exact ⟨assemble_of_expand hiet, assemble_of_expand hift, assemble_of_expand hset, assemble_of_expand hclr⟩

/-! ### The words of the pseudo-instructions (30_encoding.md R99) -/

theorem append_toNat {m k : Nat} (x : BitVec m) (y : BitVec k) : (x ++ y).toNat = x.toNat * 2 ^ k + y.toNat := by
  rw [BitVec.toNat_append, ← Nat.shiftLeft_add_eq_or_of_lt y.isLt, Nat.shiftLeft_eq]

theorem encode_write_toNat (x : Addr) (y : Byte) :
    (encode (.write x y)).toNat = 0x20000000 + x.toNat * 256 + y.toNat := by
  have hop : ((0x2 : BitVec 4) ++ (0 : BitVec 4)).toNat = 0x20 := rfl
  have hword : encode (.write x y) = (0x2 : BitVec 4) ++ (0 : BitVec 4) ++ x ++ y := rfl
  rw [hword, append_toNat, append_toNat, hop]
  omega

/-- The DATA field is the lowest one, so a byte's value adds to the word. -/
theorem encode_write_ofNat (x : Addr) (h : v ≤ 0xFF) :
    encode (.write x (BitVec.ofNat 8 v)) = encode (.write x 0) + BitVec.ofNat 32 v := by
  have hzero : (0 : Byte).toNat = 0 := rfl
  have hx := x.isLt
  apply BitVec.eq_of_toNat_eq
  rw [BitVec.toNat_add, encode_write_toNat, encode_write_toNat, hzero, BitVec.toNat_ofNat, BitVec.toNat_ofNat]
  omega

theorem assemble_steps (h : l.expand cfg = some (List.replicate n .step)) :
    l.assemble cfg = some (List.replicate n 0x00000000) := by
  rw [assemble_of_expand h, List.map_replicate]
  rfl

/-- Settles O54: the table's words at the default addresses, and its expansions at any. -/
theorem pseudoInstructionsExpand : Obligations.PseudoInstructionsExpand := by
  unfold Obligations.PseudoInstructionsExpand
  refine ⟨by decide, by decide, fun v hv => ⟨?ieWord, ?ifWord⟩,
    fun cfg => ⟨rfl, rfl, ?inRange, ?outOfRange, ?wait⟩⟩
  case ieWord =>
    rw [assemble_of_expand (expand_iewrite hv), List.map_singleton, encode_write_ofNat _ hv]
    rfl
  case ifWord =>
    rw [assemble_of_expand (expand_ifwrite hv), List.map_singleton, encode_write_ofNat _ hv]
    rfl
  case inRange => exact fun v hv => ⟨expand_iewrite hv, expand_ifwrite hv⟩
  case outOfRange =>
    intro v hv
    obtain ⟨hie, hif, -⟩ := expand_byte_outOfRange (cfg := cfg) hv
    exact ⟨assemble_of_expand_none hie, assemble_of_expand_none hif⟩
  case wait => exact ⟨assemble_steps rfl, fun n hn => assemble_steps (if_pos hn), rfl⟩

end Sys2Proof.Machine


/-! PROOFS. The statements about WRITE (20_memory.md R60 to R68): the bytes each step stores, the frame, and what a READ
answers afterwards. -/

namespace Sys2Proof.Machine

variable {s t : State} {a b : Addr} {u v : Byte} {i : Instr}

/-! ### Stores to AddressSpace -/

theorem Memory.readByte_writeByte {size d c : Nat} {m : Memory} (h : m.wf size = true) :
    (m.writeByte d v).readByte c = if c = d then v else m.readByte c := by
  by_cases hc : c = d
  · rw [if_pos hc, hc, Memory.readByte_writeByte_same h]
  · rw [if_neg hc, Memory.readByte_writeByte_other hc]

/-- Storing the byte that stands there changes nothing. -/
theorem setByte_of_byteAt (hm : s.mem.wf Config.spaceSize = true) (h : s.byteAt a = v) : s.setByte a v = s := by
  rw [← h]
  exact setByte_byteAt hm

/-- A second store of the same byte changes nothing. -/
theorem setByte_setByte (hm : s.mem.wf Config.spaceSize = true) :
    (s.setByte a v).setByte a v = s.setByte a v :=
  setByte_of_byteAt (setByte_mem_wf hm) (byteAt_setByte_same hm)

theorem byteAt_setByte (hm : s.mem.wf Config.spaceSize = true) (c : Addr) :
    (s.setByte a v).byteAt c = if c = a then v else s.byteAt c := by
  by_cases h : c = a
  · rw [if_pos h, h, byteAt_setByte_same hm]
  · rw [if_neg h, byteAt_setByte_other h]

/-- Every byte after one byte is stored at two addresses. -/
theorem byteAt_setByte_pair (hm : s.mem.wf Config.spaceSize = true) (c : Addr) :
    ((s.setByte a v).setByte b v).byteAt c = if c = a ∨ c = b then v else s.byteAt c := by
  rw [byteAt_setByte (setByte_mem_wf hm), byteAt_setByte hm]
  by_cases hb : c = b
  · rw [if_pos hb, if_pos (.inr hb)]
  · rw [if_neg hb]
    exact if_congr (or_iff_left hb).symm rfl rfl

theorem byteAt_setByte_pair_other (ha : b ≠ a) {c : Addr} (hc : b ≠ c) :
    ((s.setByte a v).setByte c v).byteAt b = s.byteAt b := by
  rw [byteAt_setByte_other hc, byteAt_setByte_other ha]

theorem setByte_pair_again (hm : s.mem.wf Config.spaceSize = true) :
    (((s.setByte a v).setByte b v).setByte a v).setByte b v = (s.setByte a v).setByte b v := by
  have hp : ((s.setByte a v).setByte b v).mem.wf Config.spaceSize = true := setByte_mem_wf (setByte_mem_wf hm)
  rw [setByte_of_byteAt (a := a) hp (by rw [byteAt_setByte_pair hm, if_pos (.inl rfl)]),
    setByte_of_byteAt (a := b) hp (by rw [byteAt_setByte_pair hm, if_pos (.inr rfl)])]

/-- The order of two stores of one byte does not matter, since a canonical store is determined by its bytes. -/
theorem setByte_comm (hm : s.mem.wf Config.spaceSize = true) :
    (s.setByte a v).setByte b v = (s.setByte b v).setByte a v := by
  have hmem : ((s.setByte a v).setByte b v).mem = ((s.setByte b v).setByte a v).mem := by
    refine Memory.eq_of_readByte_eq (setByte_mem_wf (setByte_mem_wf hm)) (setByte_mem_wf (setByte_mem_wf hm))
      fun c => ?_
    simp only [State.setByte_mem]
    rw [Memory.readByte_writeByte (Memory.writeByte_wf hm a.isLt), Memory.readByte_writeByte hm,
      Memory.readByte_writeByte (Memory.writeByte_wf hm b.isLt), Memory.readByte_writeByte hm]
    split_ifs <;> rfl
  exact congrArg s.withMem hmem

/-! ### The write decoder on every address (20_memory.md R60) -/

/-- Outside the cartridge's windows and working RAM with its tail and echo, steps WR6, WR6B and WR7 decide. -/
theorem memWrite_register (hw : ¬(inRomWrite a = true ∨ inRamWindow a = true)) (hr : ¬inEchoedRam a = true)
    (ht : ¬inRamTail a = true) (he : ¬inEcho a = true) :
    memWrite s a v = if a = s.cfg.divAddr then s.setByte a 0x00
      else if a = s.cfg.bootCtrlAddr then bootCtrlWrite s a v else s.setByte a v := by
  rw [not_or] at hw
  unfold memWrite
  rw [if_neg hw.1, if_neg hw.2, if_neg hr, if_neg ht, if_neg he]

theorem bootCtrlWrite_cases (s : State) (a : Addr) (v : Byte) :
    bootCtrlWrite s a v = s ∨ bootCtrlWrite s a v = s.setByte a v := by
  unfold bootCtrlWrite
  split
  · exact .inl rfl
  · exact .inr rfl

/-- What a write can do, whatever the register addresses. -/
theorem memWrite_shape (s : State) (a : Addr) (v : Byte) :
    ((inRomWrite a = true ∨ inRamWindow a = true) ∧ memWrite s a v = s.withCart (Config.cartWrite s.cart a v)) ∨
    (inEchoedRam a = true ∧ memWrite s a v = (s.setByte a v).setByte (echoUp a) v) ∨
    (inEcho a = true ∧ memWrite s a v = (s.setByte a v).setByte (echoDown a) v) ∨
    memWrite s a v = s ∨ ∃ u, memWrite s a v = s.setByte a u := by
  by_cases hw : inRomWrite a = true ∨ inRamWindow a = true
  · exact .inl ⟨hw, memWrite_cart hw⟩
  by_cases hr : inEchoedRam a = true
  · exact .inr (.inl ⟨hr, memWrite_echoedRam hr⟩)
  by_cases he : inEcho a = true
  · exact .inr (.inr (.inl ⟨he, memWrite_echo he⟩))
  refine .inr (.inr (.inr ?_))
  by_cases ht : inRamTail a = true
  · exact .inr ⟨v, memWrite_ramTail ht⟩
  rw [memWrite_register hw hr ht he]
  split_ifs
  · exact .inr ⟨0x00, rfl⟩
  · exact (bootCtrlWrite_cases s a v).imp_right fun h => ⟨v, h⟩
  · exact .inr ⟨v, rfl⟩

/-- A write leaves every byte but the addressed one and its mirror alone. -/
theorem byteAt_memWrite_other (hne : b ≠ a) (hup : inEchoedRam a = true → b ≠ echoUp a)
    (hdown : inEcho a = true → b ≠ echoDown a) : (memWrite s a v).byteAt b = s.byteAt b := by
  obtain ⟨-, e⟩ | ⟨hr, e⟩ | ⟨he, e⟩ | e | ⟨u, e⟩ := memWrite_shape s a v <;> rw [e]
  · rfl
  · exact byteAt_setByte_pair_other hne (hup hr)
  · exact byteAt_setByte_pair_other hne (hdown he)
  · exact byteAt_setByte_other hne

theorem memWrite_keeps_cart (hw : ¬(inRomWrite a = true ∨ inRamWindow a = true)) :
    (memWrite s a v).cart = s.cart := by
  obtain ⟨h, -⟩ | ⟨-, e⟩ | ⟨-, e⟩ | e | ⟨u, e⟩ := memWrite_shape s a v
  · exact absurd h hw
  all_goals simp only [e, State.setByte_cart]

/-- Settles O18: the shapes of a write, one clause of the frame at a time. -/
theorem writeChangesOnlyItsByteAndItsMirror : Obligations.WriteChangesOnlyItsByteAndItsMirror := by
  unfold Obligations.WriteChangesOnlyItsByteAndItsMirror
  intro s a v
  obtain ⟨hcfg, hov, hdma, hcommands, -⟩ := memWrite_frame s a v
  refine ⟨(memWrite s a v).respond none, exec_write a v, fun b => byteAt_memWrite_other, ?window,
    memWrite_keeps_cart, hcfg, hov, hdma, hcommands, rfl⟩
  case window =>
    intro hw b
    rw [State.respond_byteAt, memWrite_cart hw, State.withCart_byteAt]

/-- Settles O10: steps WR1 and WR2 hand the byte to the cartridge. -/
theorem writeToCartridgeWindowGoesToTheCartridge : Obligations.WriteToCartridgeWindowGoesToTheCartridge := by
  unfold Obligations.WriteToCartridgeWindowGoesToTheCartridge
  intro s a v h
  rw [← inRomWrite_iff, ← inRamWindow_iff] at h
  rw [exec_write, memWrite_cart h]
  rfl

/-! ### Working RAM and its echo -/

/-- A WRITE that the decoder turns into two stores of its byte: both bytes, and the frame. -/
theorem exec_write_of_setByte_pair {c : Addr} (hm : s.mem.wf Config.spaceSize = true)
    (hw : memWrite s a v = (s.setByte a v).setByte c v) :
    ∃ t, exec (.write a v) s = .next t ∧ t.byteAt a = v ∧ t.byteAt c = v ∧
      (∀ b, b ≠ a → b ≠ c → t.byteAt b = s.byteAt b) ∧ SameOutsideMemory s t := by
  refine ⟨((s.setByte a v).setByte c v).respond none, ?_, ?_, ?_,
    fun b ha hc => byteAt_setByte_pair_other ha hc, rfl, rfl, rfl, rfl, rfl⟩
  · rw [exec_write, hw]
  · rw [State.respond_byteAt, byteAt_setByte_pair hm, if_pos (.inl rfl)]
  · rw [State.respond_byteAt, byteAt_setByte_pair hm, if_pos (.inr rfl)]

/-- Settles O12: steps WR3 and WR5 store the byte at both aliases. -/
theorem writeStoresBothAliasesOfWorkingRam : Obligations.WriteStoresBothAliasesOfWorkingRam := by
  unfold Obligations.WriteStoresBothAliasesOfWorkingRam
  intro s a v hm
  constructor
  · exact fun hlo hhi => exec_write_of_setByte_pair hm (memWrite_echoedRam (inEchoedRam_iff.2 ⟨hlo, hhi⟩))
  · exact fun hlo hhi => exec_write_of_setByte_pair hm (memWrite_echo (inEcho_iff.2 ⟨hlo, hhi⟩))

/-- A write through the echo is the write through working RAM. -/
theorem memWrite_echoUp (hm : s.mem.wf Config.spaceSize = true) (h : inEchoedRam a = true) :
    memWrite s (echoUp a) v = memWrite s a v := by
  rw [memWrite_echo (inEcho_echoUp h), memWrite_echoedRam h, echoDown_echoUp, setByte_comm hm]

/-- From working RAM up, READ answers the byte that stands in AddressSpace. -/
theorem exec_read_high (ha : 0xC000 ≤ a) (h : t.byteAt a = v) :
    exec (.read a) t = .next { t with response := some v } := by
  rw [exec_read, memRead_high ha, h]
  rfl

/-- Settles O13: both writes store at both aliases, and both aliases are read from AddressSpace. -/
theorem writeThroughOneAliasReadsBackThroughBoth : Obligations.WriteThroughOneAliasReadsBackThroughBoth := by
  unfold Obligations.WriteThroughOneAliasReadsBackThroughBoth
  intro s a v hm hlo hhi
  have hr : inEchoedRam a = true := inEchoedRam_iff.2 ⟨hlo, hhi⟩
  have hecho : exec (.write (a + 0x2000) v) s = exec (.write a v) s :=
    congrArg (fun u => Host.Outcome.next (State.respond u none)) (memWrite_echoUp hm hr)
  obtain ⟨t, he, ha, hup, -⟩ := exec_write_of_setByte_pair hm (memWrite_echoedRam (v := v) hr)
  have hread : exec (.read a) t = .next { t with response := some v } := exec_read_high hlo ha
  have hreadUp : exec (.read (a + 0x2000)) t = .next { t with response := some v } :=
    exec_read_high (by bv_omega) hup
  exact ⟨⟨t, he, hread, hreadUp⟩, ⟨t, hecho.trans he, hread, hreadUp⟩⟩

/-! ### Plain bytes and the boot-control byte -/

/-- Settles O15: step WR7 stores the byte, and RD4 reads it. -/
theorem writeToPlainByteStoresItWhole : Obligations.WriteToPlainByteStoresItWhole := by
  unfold Obligations.WriteToPlainByteStoresItWhole
  intro s a v hm ha hd hb
  have hw : memWrite s a v = s.setByte a v := memWrite_plain (ha.imp_right .inr) hd hb
  obtain ⟨t, he, hv, hframe, hout⟩ := exec_write_of_setByte hm hw
  refine ⟨t, he, hv, hframe, hout, ?_⟩
  obtain ⟨hlo, hhi⟩ | hhigh := ha
  · rw [exec_read, memRead_videoRam (by bv_omega) hhi, hv]
    rfl
  · exact exec_read_high (by bv_omega) hv

/-- With the register addresses admitted, step WR6B decides at the boot-control address. -/
theorem memWrite_bootCtrl (hc : configValid s.cfg = true) :
    memWrite s s.cfg.bootCtrlAddr v = bootCtrlWrite s s.cfg.bootCtrlAddr v := by
  obtain ⟨-, hb, -⟩ := configValid_ranges hc
  obtain ⟨hne, -⟩ := configValid_distinct hc
  rw [memWrite_high (by bv_omega), if_neg hne.symm, if_pos rfl]

/-- Settles O17: the two cases are the two branches of step WR6B. -/
theorem bootControlWriteIgnoresZeroOntoNonzero : Obligations.BootControlWriteIgnoresZeroOntoNonzero := by
  unfold Obligations.BootControlWriteIgnoresZeroOntoNonzero
  intro s v hc hm
  constructor
  · intro h
    rw [exec_write, memWrite_bootCtrl hc, bootCtrlWrite, if_pos h]
    rfl
  · intro h
    exact exec_write_of_setByte hm ((memWrite_bootCtrl hc).trans (if_neg h))

/-- Settles O9: the write turns the overlay off, so RD2 answers the READ. -/
theorem readAfterBootOffAnswersFromTheCartridge : Obligations.ReadAfterBootOffAnswersFromTheCartridge := by
  unfold Obligations.ReadAfterBootOffAnswersFromTheCartridge
  intro s a v hc hm hv ha
  have hw : memWrite s s.cfg.bootCtrlAddr v = s.setByte s.cfg.bootCtrlAddr v :=
    (memWrite_bootCtrl hc).trans (if_neg fun h => hv h.2)
  obtain ⟨t, he, hboot, -, hcfg, -, -, hcart, -⟩ := exec_write_of_setByte hm hw
  have hoff : t.overlayActive = false := by
    rw [overlayActive_eq_false_iff, hcfg, hboot]
    exact hv
  refine ⟨t, he, ?_⟩
  rw [← hcart, exec_read, memRead_rom (by bv_omega) (.inr hoff)]
  rfl

/-! ### The same WRITE twice -/

theorem bootCtrlWrite_bootCtrlWrite (hm : s.mem.wf Config.spaceSize = true) :
    bootCtrlWrite (bootCtrlWrite s a v) a v = bootCtrlWrite s a v := by
  obtain e | e := bootCtrlWrite_cases s a v
  · rw [e, e]
  · rw [e]
    exact (bootCtrlWrite_cases _ a v).elim id fun h => h.trans (setByte_setByte hm)

/-- A second write of the same byte leaves AddressSpace alone; the cartridge may still see it. -/
theorem memWrite_memWrite_mem (hm : s.mem.wf Config.spaceSize = true) :
    (memWrite (memWrite s a v) a v).mem = (memWrite s a v).mem := by
  by_cases hw : inRomWrite a = true ∨ inRamWindow a = true
  · rw [memWrite_cart hw, memWrite_cart hw]
    rfl
  by_cases hr : inEchoedRam a = true
  · rw [memWrite_echoedRam hr, memWrite_echoedRam hr, setByte_pair_again hm]
  by_cases he : inEcho a = true
  · rw [memWrite_echo he, memWrite_echo he, setByte_pair_again hm]
  by_cases ht : inRamTail a = true
  · rw [memWrite_ramTail ht, memWrite_ramTail ht, setByte_setByte hm]
  obtain ⟨hcfg, -⟩ := memWrite_frame s a v
  rw [memWrite_register (s := memWrite s a v) hw hr ht he, hcfg, memWrite_register hw hr ht he]
  split_ifs
  · rw [setByte_setByte hm]
  · rw [bootCtrlWrite_bootCtrlWrite hm]
  · rw [setByte_setByte hm]

theorem memWrite_respond (s : State) (r : Option Byte) (a : Addr) (v : Byte) :
    memWrite (s.respond r) a v = (memWrite s a v).respond r := by
  unfold memWrite bootCtrlWrite
  simp only [apply_ite (fun u => State.respond u r)]
  rfl

/-- Settles O19: the second write stores what already stands there. -/
theorem writingTheSameByteTwiceIsWritingItOnce : Obligations.WritingTheSameByteTwiceIsWritingItOnce := by
  unfold Obligations.WritingTheSameByteTwiceIsWritingItOnce
  intro s a v hm
  refine ⟨_, _, exec_write a v, exec_write a v, ?_⟩
  rw [memWrite_respond]
  exact memWrite_memWrite_mem hm

/-! ### Bytes that a command leaves alone -/

/-- A byte outside the sprite table changes only by a WRITE that changes it, or as IF by IFSET and IFCLR. -/
theorem exec_keeps_byteAt (h : exec i s = .next t)
    (hwrite : ∀ a v, i = .write a v → (memWrite s a v).byteAt b = s.byteAt b)
    (hif : ∀ k, i = .ifset k ∨ i = .ifclr k → b ≠ s.cfg.ifAddr) (hdma : b < 0xFE00 ∨ 0xFE9F < b) :
    t.byteAt b = s.byteAt b := by
  obtain ⟨-, rfl⟩ | ⟨a, -, rfl⟩ | ⟨a, v, hi, rfl⟩ | ⟨k, -, -, r, rfl⟩ | ⟨k, v, hi, -, rfl⟩ | ⟨a, -, rfl⟩ :=
    exec_cases h
  · rfl
  · rfl
  · exact hwrite a v hi
  · rfl
  · exact byteAt_setByte_other (hif k (hi.imp And.left And.left))
  · rw [State.respond_byteAt, State.withDma_byteAt, dmaCopy_outside hdma]

/-- A write to another address leaves a byte from 0xFE00 up alone: the echo region ends below. -/
theorem byteAt_memWrite_high (hb : 0xFE00 ≤ b) (hne : b ≠ a) : (memWrite s a v).byteAt b = s.byteAt b := by
  refine byteAt_memWrite_other hne (fun hr => ?_) fun he => ?_
  · have hup := inEcho_iff.1 (inEcho_echoUp hr)
    bv_omega
  · have hdown := inEchoedRam_iff.1 (inEchoedRam_echoDown he)
    bv_omega

/-- A register's byte changes only by a WRITE to its address, or as IF by IFSET and IFCLR. -/
theorem exec_keeps_register (h : exec i s = .next t) (hb : 0xFEA0 ≤ b) (hwrite : ∀ v, i ≠ .write b v)
    (hif : ∀ k, i = .ifset k ∨ i = .ifclr k → b ≠ s.cfg.ifAddr) : t.byteAt b = s.byteAt b := by
  refine exec_keeps_byteAt h (fun a v hi => byteAt_memWrite_high (by bv_omega) ?_) hif (.inr (by bv_omega))
  rintro rfl
  exact hwrite v hi

/-- Settles O27: the IF address is a register's. -/
theorem onlyAccessorsAndWritesChangeIf : Obligations.OnlyAccessorsAndWritesChangeIf := by
  unfold Obligations.OnlyAccessorsAndWritesChangeIf
  intro i s t hc h hset hclr hwrite
  obtain ⟨-, -, hif, -⟩ := configValid_ranges hc
  exact exec_keeps_register h hif hwrite fun k hi => (hi.elim (hset k) (hclr k)).elim

/-- Settles O28: the IE address is a register's, and not that of IF. -/
theorem onlyAWriteChangesIe : Obligations.OnlyAWriteChangesIe := by
  unfold Obligations.OnlyAWriteChangesIe
  intro i s t hc h hwrite
  obtain ⟨-, -, -, hie, -⟩ := configValid_ranges hc
  obtain ⟨-, -, -, -, -, hne, -⟩ := configValid_distinct hc
  exact exec_keeps_register h hie hwrite fun _ _ => hne.symm

/-! ### Shadowed bytes (10_state.md section 7) -/

/-- A write does not store to the cartridge's windows: it goes to the cartridge there, and no mirror lies in them. -/
theorem byteAt_memWrite_window (hb : inRomWrite b = true ∨ inRamWindow b = true) :
    (memWrite s a v).byteAt b = s.byteAt b := by
  by_cases hne : b = a
  · rw [memWrite_cart (hne ▸ hb), State.withCart_byteAt]
  rw [inRomWrite_iff, inRamWindow_iff] at hb
  refine byteAt_memWrite_other hne (fun hr => ?_) fun he => ?_
  · have hup := inEcho_iff.1 (inEcho_echoUp hr)
    bv_omega
  · have hdown := inEchoedRam_iff.1 (inEchoedRam_echoDown he)
    bv_omega

theorem exec_keeps_window (hc : configValid s.cfg = true) (h : exec i s = .next t)
    (hb : inRomWrite b = true ∨ inRamWindow b = true) : t.byteAt b = s.byteAt b := by
  obtain ⟨-, -, hif, -⟩ := configValid_ranges hc
  have hr := hb
  rw [inRomWrite_iff, inRamWindow_iff] at hr
  exact exec_keeps_byteAt h (fun a v _ => byteAt_memWrite_window hb) (fun _ _ => by bv_omega) (.inl (by bv_omega))

/-- What a read looks at: the overlay and its switch, the cartridge, and the bytes outside the cartridge's windows. -/
theorem memRead_congr (hov : t.ov = s.ov) (hcart : t.cart = s.cart) (hact : t.overlayActive = s.overlayActive)
    (hbyte : 0x8000 ≤ b → inRamWindow b = false → t.byteAt b = s.byteAt b) : memRead t b = memRead s b := by
  have hoverlay (x : Byte) : t.overlayAt x = s.overlayAt x := by
    unfold State.overlayAt
    rw [hov]
  unfold memRead
  rw [hact, hcart, hoverlay]
  split_ifs with h1 h2 h3
  · rfl
  · rfl
  · rfl
  · rw [inRomRead_iff, BitVec.not_lt] at h2
    exact hbyte h2 (Bool.eq_false_of_not_eq_true h3)

/-- A shadowed byte is neither the overlay's switch nor one that RD4 answers. -/
theorem memRead_setByte_shadowed (hc : configValid s.cfg = true) (ha : a < 0x8000 ∨ inRamWindow a = true) :
    memRead (s.setByte a v) b = memRead s b := by
  obtain ⟨-, hboot, -⟩ := configValid_ranges hc
  have hr := ha
  rw [inRamWindow_iff] at hr
  refine memRead_congr rfl rfl ?_ fun hlo hwin => byteAt_setByte_other ?_
  · have hne : s.cfg.bootCtrlAddr ≠ a := by bv_omega
    unfold State.overlayActive State.bootCtrl
    rw [State.setByte_cfg, byteAt_setByte_other hne]
  · rintro rfl
    rw [hwin] at ha
    exact ha.elim (fun h => absurd h (BitVec.not_lt.2 hlo)) nofun

/-- Settles O46: no read looks at a shadowed byte, and no command stores to the cartridge's windows. -/
theorem shadowedBytesAreNeverObservedOrWritten : Obligations.ShadowedBytesAreNeverObservedOrWritten := by
  unfold Obligations.ShadowedBytesAreNeverObservedOrWritten
  simp only [← inRomWrite_iff, ← inRamWindow_iff]
  exact ⟨fun s a b v hc ha => memRead_setByte_shadowed hc ha, fun i s t a hc ha h => exec_keeps_window hc h ha⟩

end Sys2Proof.Machine


/-! PROOFS. The statements about the interrupt registers' accessors (41_interrupt_regs.md R139 to R145). -/

namespace Sys2Proof.Machine

variable {s t : State} {v : Byte} {k : Nat}

/-! ### The tests -/

theorem boolByte_testBit (hk : k ≤ 4) : boolByte (testBit v k) = if v.getLsbD k then 0x01 else 0x00 := by
  rw [testBit_eq (by omega), boolByte]

/-- Settles O20: IETEST's byte is the bit that `testBit` reads. -/
theorem ietestAnswersItsBit : Obligations.IetestAnswersItsBit := by
  unfold Obligations.IetestAnswersItsBit
  intro s k hk
  rw [exec_ietest hk, boolByte_testBit hk]
  rfl

/-- Settles O21: IFTEST's byte is the bit that `testBit` reads. -/
theorem iftestAnswersItsBit : Obligations.IftestAnswersItsBit := by
  unfold Obligations.IftestAnswersItsBit
  intro s k hk
  rw [exec_iftest hk, boolByte_testBit hk]
  rfl

/-! ### IFSET and IFCLR -/

/-- A direct store to IF: that byte, the frame, and no response. -/
theorem setIfReg_frame (hm : s.mem.wf Config.spaceSize = true) (v : Byte) :
    ((s.setIfReg v).respond none).byteAt s.cfg.ifAddr = v ∧
    (∀ b, b ≠ s.cfg.ifAddr → ((s.setIfReg v).respond none).byteAt b = s.byteAt b) ∧
    SameOutsideMemory s ((s.setIfReg v).respond none) :=
  ⟨byteAt_setByte_same hm, fun _ hb => byteAt_setByte_other hb, rfl, rfl, rfl, rfl, rfl⟩

/-- Settles O22: IFSET stores `setBit`, bit by bit. -/
theorem ifsetChangesOneBitOfIf : Obligations.IfsetChangesOneBitOfIf := by
  unfold Obligations.IfsetChangesOneBitOfIf
  intro s k hk hm
  obtain ⟨hif, hframe, hout⟩ := setIfReg_frame hm (setBit s.ifReg k)
  refine ⟨_, exec_ifset hk, fun j hj => ?_, hframe, hout, rfl⟩
  rw [hif, setBit_getLsbD hj]
  rfl

/-- Settles O23: IFCLR stores `clearBit`, bit by bit. -/
theorem ifclrChangesOneBitOfIf : Obligations.IfclrChangesOneBitOfIf := by
  unfold Obligations.IfclrChangesOneBitOfIf
  intro s k hk hm
  obtain ⟨hif, hframe, hout⟩ := setIfReg_frame hm (clearBit s.ifReg k)
  refine ⟨_, exec_ifclr hk, fun j hj => ?_, hframe, hout, rfl⟩
  rw [hif, clearBit_getLsbD hj]
  rfl

/-! ### A test, and a second accessor, after IFSET and IFCLR -/

theorem setBit_setBit : setBit (setBit v k) k = setBit v k := by
  unfold setBit
  rw [BitVec.or_assoc, BitVec.or_self]

theorem clearBit_clearBit : clearBit (clearBit v k) k = clearBit v k := by
  unfold clearBit
  rw [BitVec.and_assoc, BitVec.and_self]

theorem getLsbD_setBit_same (hk : k < 8) : (setBit v k).getLsbD k = true := by
  simp [setBit_getLsbD hk]

theorem getLsbD_clearBit_same (hk : k < 8) : (clearBit v k).getLsbD k = false := by
  simp [clearBit_getLsbD hk]

theorem ifReg_setIfReg (hm : s.mem.wf Config.spaceSize = true) (r : Option Byte) :
    ((s.setIfReg v).respond r).ifReg = v :=
  byteAt_setByte_same hm

/-- Storing in IF what stands there, with the response port empty already. -/
theorem setIfReg_again (hm : s.mem.wf Config.spaceSize = true) :
    (((s.setIfReg v).respond none).setIfReg v).respond none = (s.setIfReg v).respond none := by
  have hsame : ((s.setIfReg v).respond none).setIfReg v = (s.setIfReg v).respond none :=
    setByte_of_byteAt (setByte_mem_wf hm) (byteAt_setByte_same hm)
  rw [hsame]
  rfl

/-- After a direct store to IF, IFTEST answers the stored byte's bit. -/
theorem exec_iftest_setIfReg (hm : s.mem.wf Config.spaceSize = true) (hk : k ≤ 4) (r : Option Byte) :
    exec (.iftest k) ((s.setIfReg v).respond r) =
      .next { (s.setIfReg v).respond r with response := some (if v.getLsbD k then 0x01 else 0x00) } := by
  rw [exec_iftest hk, ifReg_setIfReg hm, boolByte_testBit hk]
  rfl

/-- IE is another byte than IF (00_scope.md R5). -/
theorem ieByte_setIfReg (hc : configValid s.cfg = true) (r : Option Byte) :
    ((s.setIfReg v).respond r).byteAt s.cfg.ieAddr = s.byteAt s.cfg.ieAddr := by
  obtain ⟨-, -, -, -, -, hne, -⟩ := configValid_distinct hc
  exact byteAt_setByte_other hne.symm

/-- Settles O24: IF holds the byte stored, whose bit is known, and storing it again changes nothing. -/
theorem setOrClearThenTestAnswers : Obligations.SetOrClearThenTestAnswers := by
  unfold Obligations.SetOrClearThenTestAnswers
  intro s k hk hc hm
  constructor
  · refine ⟨_, exec_ifset hk, ?_, ?_, ieByte_setIfReg hc none⟩
    · rw [exec_iftest_setIfReg hm hk, getLsbD_setBit_same (by omega)]
      rfl
    · rw [exec_ifset hk, ifReg_setIfReg hm, setBit_setBit, setIfReg_again hm]
  · refine ⟨_, exec_ifclr hk, ?_, ?_, ieByte_setIfReg hc none⟩
    · rw [exec_iftest_setIfReg hm hk, getLsbD_clearBit_same (by omega)]
      rfl
    · rw [exec_ifclr hk, ifReg_setIfReg hm, clearBit_clearBit, setIfReg_again hm]

/-- Settles O25: both registers lie where RD4 and WR7 decide. -/
theorem accessorsAgreeWithTheDecoders : Obligations.AccessorsAgreeWithTheDecoders := by
  unfold Obligations.AccessorsAgreeWithTheDecoders
  intro s v hc
  obtain ⟨-, -, hif, hie, -⟩ := configValid_ranges hc
  obtain ⟨-, hdiv, -, hboot, -⟩ := configValid_distinct hc
  exact ⟨memRead_high (by bv_omega), memRead_high (by bv_omega),
    memWrite_plain (.inr (.inr (by bv_omega))) hdiv.symm hboot.symm⟩

end Sys2Proof.Machine

/-! PROOFS. The statements about the DMA engine (42_dma.md R160 to R168): the copy, STEP's count, and the
busy window. -/

namespace Sys2Proof.Machine

variable {s t u : State} {start : Addr} {i : Instr} {k : Nat} {rest : List CmdWord}

/-! ### The copy -/

theorem byteAt_dma (b : Addr) :
    (((dmaCopy s start).withDma ⟨true, 0⟩).respond none).byteAt b = (dmaCopy s start).byteAt b := by
  rw [State.respond_byteAt, State.withDma_byteAt]

/-- Settles O29: the copy's bytes inside and outside the sprite table, and the fields that DMA keeps. -/
theorem dmaCopiesTheBytesReadAtTheCall : Obligations.DmaCopiesTheBytesReadAtTheCall := by
  unfold Obligations.DmaCopiesTheBytesReadAtTheCall
  intro s start hm
  refine ⟨_, exec_dma start, fun i hi => ?inside, fun b hb => ?outside, rfl,
    ?cfg, ?ov, ?cart, ?commands, rfl⟩
  case inside => rw [byteAt_dma, dmaCopy_inside hm hi]
  case outside => rw [byteAt_dma, dmaCopy_outside hb]
  case cfg | ov | cart | commands => simp

/-- Settles O30: the sprite table is read from AddressSpace, where the copy stands. -/
theorem spriteTableReadsBackAtOnceAfterDma : Obligations.SpriteTableReadsBackAtOnceAfterDma := by
  unfold Obligations.SpriteTableReadsBackAtOnceAfterDma
  intro s start hm
  refine ⟨_, exec_dma start, fun i hi => ⟨memRead s (start + BitVec.ofNat 16 i), exec_read _, ?_⟩⟩
  have hdest := dmaDest_toNat hi
  exact exec_read_high (by bv_omega) (by rw [byteAt_dma, dmaCopy_inside hm hi])

theorem Memory.storeBytes_concat {v : Byte} (m : Memory) (base : Nat) (vs : List Byte) :
    m.storeBytes base (vs ++ [v]) = (m.storeBytes base vs).writeByte (base + vs.length) v := by
  induction vs generalizing m base with
  | nil => rfl
  | cons x xs ih =>
    have hlen : base + (x :: xs).length = base + 1 + xs.length := by
      rw [List.length_cons]
      omega
    rw [hlen]
    exact ih (m.writeByte base x) (base + 1)

/-- No register lies in the sprite table, so step WR7 decides there. -/
theorem memWrite_spriteTable {v : Byte} (hc : configValid s.cfg = true) (hk : k < 160) :
    memWrite s (0xFE00 + BitVec.ofNat 16 k) v = s.withMem (s.mem.writeByte (65024 + k) v) := by
  obtain ⟨hdiv, hboot, -⟩ := configValid_ranges hc
  have hdest := dmaDest_toNat hk
  rw [memWrite_plain (.inr (.inr (by bv_omega))) (by bv_omega) (by bv_omega), State.setByte, hdest]

/-- The first `n` bytes through the write decoder, one after another. -/
theorem foldl_memWrite_spriteTable (hc : configValid s.cfg = true) (f : Nat → Byte) {n : Nat} (hn : n ≤ 160) :
    (List.range n).foldl (fun u i => memWrite u (0xFE00 + BitVec.ofNat 16 i) (f i)) s =
      s.withMem (s.mem.storeBytes 65024 ((List.range n).map f)) := by
  induction n with
  | zero => rfl
  | succ n ih =>
    rw [List.range_succ, List.foldl_append, ih (by omega), List.map_append, List.map_singleton,
      Memory.storeBytes_concat, List.length_map, List.length_range]
    exact memWrite_spriteTable hc (by omega)

/-- Settles O31: the decoder's writes store the buffer byte by byte, as the copy does. -/
theorem dmaCopyEqualsDecoderWrites : Obligations.DmaCopyEqualsDecoderWrites := by
  unfold Obligations.DmaCopyEqualsDecoderWrites
  intro s start hc
  exact foldl_memWrite_spriteTable hc (fun i => memRead s (start + BitVec.ofNat 16 i)) le_rfl

/-- Copying the sprite table onto itself stores every byte where it stands. -/
theorem dmaCopy_self (hm : s.mem.wf Config.spaceSize = true) : dmaCopy s 0xFE00 = s := by
  have hmem : (dmaCopy s 0xFE00).mem = s.mem := by
    refine Memory.eq_of_readByte_eq (dmaCopy_mem_wf hm) hm fun c => ?_
    by_cases hc : 65024 ≤ c ∧ c < 65024 + 160
    · obtain ⟨i, rfl⟩ := Nat.exists_eq_add_of_le hc.1
      have hi : i < 160 := by omega
      have hdest := dmaDest_toNat hi
      have hbyte := dmaCopy_inside (start := 0xFE00) hm hi
      rw [memRead_high (by bv_omega), State.byteAt, State.byteAt, hdest] at hbyte
      exact hbyte
    · rw [dmaCopy_mem]
      refine Memory.readByte_storeBytes_outside ?_
      have hlen : (dmaBuffer s 0xFE00).length = 160 := dmaBuffer_length
      omega
  unfold dmaCopy at hmem ⊢
  rw [State.withMem_mem] at hmem
  rw [hmem]
  rfl

/-- Settles O32: the copy changes nothing, and DMA's other effects are the engine's and the response. -/
theorem dmaOntoItselfLeavesTheSpriteTable : Obligations.DmaOntoItselfLeavesTheSpriteTable := by
  unfold Obligations.DmaOntoItselfLeavesTheSpriteTable
  intro s hm
  rw [exec_dma, dmaCopy_self hm]
  rfl

/-! ### STEP (42_dma.md R165) -/

theorem Dma.advance_idle {d : Dma} (h : d.active = false) : d.advance = d := by
  unfold Dma.advance
  rw [h]
  rfl

theorem Dma.advance_counts {d : Dma} (ha : d.active = true) (hn : d.elapsed.toNat + 1 < 160) :
    d.advance = ⟨true, d.elapsed + 1⟩ := by
  have hwindow : BitVec.ofNat 8 Config.busyWindow = 160 := rfl
  have hne : d.elapsed + 1 ≠ 160 := by bv_omega
  unfold Dma.advance
  rw [hwindow, if_pos ha, if_neg hne]

theorem Dma.advance_ends {d : Dma} (ha : d.active = true) (hn : d.elapsed.toNat + 1 = 160) :
    d.advance = ⟨false, 0⟩ := by
  have hwindow : BitVec.ofNat 8 Config.busyWindow = 160 := rfl
  have he : d.elapsed + 1 = 160 := by bv_omega
  unfold Dma.advance
  rw [hwindow, if_pos ha, if_pos he]

/-- The one word of OP 0 that spells a command is that of STEP. -/
theorem decode_error_of_step_opcode {w : CmdWord} (ho : opField w = 0) (hw : w ≠ 0x00000000) :
    ∃ e, decode w = .error e := by
  cases h : decode w with
  | error e => exact ⟨e, rfl⟩
  | ok i =>
    obtain ⟨hop, -⟩ := decode_ok_iff_fields.1 h
    have hencode := encode_of_decode h
    rw [ho] at hop
    cases i with
    | step => exact absurd hencode.symm hw
    | read | write | ietest | iftest | ifset | ifclr | dma => exact absurd hop (by simp [Instr.opcode])

/-- Settles O33: STEP's word, and the three cases of the engine's count. -/
theorem stepAdvancesTheDmaCount : Obligations.StepAdvancesTheDmaCount := by
  unfold Obligations.StepAdvancesTheDmaCount
  refine ⟨rfl, fun w => decode_error_of_step_opcode, fun s => ⟨?idle, ?counts, ?ends⟩⟩
  case idle =>
    intro ha
    rw [exec_step, Dma.advance_idle ha]
    rfl
  case counts =>
    intro ha hn
    rw [exec_step, Dma.advance_counts ha hn]
    rfl
  case ends =>
    intro ha hn
    rw [exec_step, Dma.advance_ends ha hn]
    rfl

/-- Settles O37: DMA leaves Active(0) in any state, which a STEP counts to 1. -/
theorem orderOfDmaAndStepIsVisible : Obligations.OrderOfDmaAndStepIsVisible := by
  unfold Obligations.OrderOfDmaAndStepIsVisible
  exact fun s start => ⟨⟨_, _, exec_dma start, exec_step, rfl⟩, ⟨_, _, exec_step, exec_dma start, rfl⟩⟩

/-- Settles O35: of the shapes of a command, only those of STEP and DMA touch the DMA state. -/
theorem onlyStepAndDmaChangeTheDmaState : Obligations.OnlyStepAndDmaChangeTheDmaState := by
  unfold Obligations.OnlyStepAndDmaChangeTheDmaState
  intro i s t h hstep hdma
  have hkeep : t.dma = s.dma := by
    obtain ⟨hi, -⟩ | ⟨a, -, rfl⟩ | ⟨a, v, -, rfl⟩ | ⟨k, -, -, r, rfl⟩ | ⟨k, v, -, -, rfl⟩ | ⟨a, hi, -⟩ :=
      exec_cases h
    · exact absurd hi hstep
    · rfl
    · obtain ⟨-, -, hd, -⟩ := memWrite_frame s a v
      exact hd
    · rfl
    · rfl
    · exact absurd hi (hdma a)
  exact ⟨hkeep, congrArg Dma.active hkeep⟩

/-! ### The busy window -/

/-- The last of `k + 1` steps. -/
theorem run_succ_last (h : Sys2Proof.core.run k s = .next t) : Sys2Proof.core.run (k + 1) s = step t := by
  induction k generalizing s with
  | zero =>
    obtain rfl := Host.Outcome.next.inj h
    cases hs : step s with
    | next u => exact run_succ_next 0 hs
    | fault f => exact run_succ_fault 0 hs
    | refused r => exact run_succ_refused 0 hs
  | succ k ih =>
    cases hs : step s with
    | next u =>
      rw [run_succ_next k hs] at h
      rw [run_succ_next (k + 1) hs, ih h]
    | fault f =>
      rw [run_succ_fault k hs] at h
      cases h
    | refused r =>
      rw [run_succ_refused k hs] at h
      cases h

/-- A waiting STEP word runs the engine's cycle. -/
theorem step_of_stepWord {ws : List CmdWord} (h : s.commands = 0x00000000 :: ws) :
    step s = .next (((s.withCommands ws).withDma s.dma.advance).respond none) := by
  rw [step_waiting h, runWord_of_decode (i := .step) rfl, exec_step]
  rfl

/-- `t` after `k` of the 160 STEPs that wait in front of `rest`, before the window ends. -/
def afterSteps (t : State) (rest : List CmdWord) (k : Nat) : State :=
  ((t.withDma ⟨true, BitVec.ofNat 8 k⟩).withCommands (List.replicate (160 - k) 0x00000000 ++ rest)).respond none

theorem afterSteps_zero (h : t.commands = List.replicate 160 0x00000000 ++ rest) :
    afterSteps t rest 0 = (t.withDma ⟨true, 0⟩).respond none := by
  rw [afterSteps, Nat.sub_zero, ← h]
  rfl

theorem step_afterSteps (hk : k < 160) :
    step (afterSteps t rest k) =
      .next (((t.withDma (Dma.advance ⟨true, BitVec.ofNat 8 k⟩)).withCommands
        (List.replicate (160 - (k + 1)) 0x00000000 ++ rest)).respond none) := by
  have hlen : 160 - k = 160 - (k + 1) + 1 := by omega
  have hwait : (afterSteps t rest k).commands =
      0x00000000 :: (List.replicate (160 - (k + 1)) 0x00000000 ++ rest) := by
    rw [afterSteps, hlen, List.replicate_succ]
    rfl
  rw [step_of_stepWord hwait]
  rfl

/-- Below 160 every STEP counts by one. -/
theorem run_afterSteps (hk : k < 160) :
    Sys2Proof.core.run k (afterSteps t rest 0) = .next (afterSteps t rest k) := by
  induction k with
  | zero => rfl
  | succ k ih =>
    have hcount : (BitVec.ofNat 8 k).toNat + 1 < 160 := by
      rw [BitVec.toNat_ofNat]
      omega
    rw [run_succ_last (ih (by omega)), step_afterSteps (by omega), Dma.advance_counts rfl hcount, afterSteps,
      BitVec.ofNat_add]
    rfl

/-- The 160th STEP ends the window. -/
theorem run_busyWindow :
    Sys2Proof.core.run 160 (afterSteps t rest 0) =
      .next (((t.withDma ⟨false, 0⟩).withCommands rest).respond none) := by
  rw [run_succ_last (run_afterSteps (k := 159) (by omega)), step_afterSteps (by omega), Dma.advance_ends rfl rfl]
  rfl

/-- Settles O34: DMA leaves the window's start, from which `run_afterSteps` and `run_busyWindow` count. -/
theorem busyWindowLastsOneHundredSixtySteps : Obligations.BusyWindowLastsOneHundredSixtySteps := by
  unfold Obligations.BusyWindowLastsOneHundredSixtySteps
  intro s start rest hw
  have hcopy : (dmaCopy s start).commands = List.replicate 160 0x00000000 ++ rest := dmaCopy_commands.trans hw
  refine ⟨_, exec_dma start, ?_⟩
  generalize dmaCopy s start = c at hcopy ⊢
  rw [← afterSteps_zero hcopy]
  exact ⟨fun k hk => ⟨afterSteps c rest k, run_afterSteps hk, rfl, rfl⟩, run_busyWindow⟩

end Sys2Proof.Machine


/-! PROOFS. The statements about init (70_reset_and_hazards.md R200; 10_state.md R40 to R44). -/

namespace Sys2Proof.Machine

variable {cfg : Config} {img : BootImage} {cart : Except CartError CartState} {c : CartState} {t : State}

/-! ### What init answers -/

theorem initFrom_badConfiguration (hc : configValid cfg = false) :
    initFrom cfg img cart = .refused .badConfiguration := by
  unfold initFrom
  rw [hc]
  rfl

theorem initFrom_unreadable (hc : configValid cfg = true) :
    initFrom cfg .unreadable cart = .fault (.initializationError .bootImage) := by
  unfold initFrom
  rw [hc]
  rfl

theorem initFrom_readable (hc : configValid cfg = true) (hi : img ≠ .unreadable) :
    initFrom cfg img cart = initWithCart cfg img cart := by
  unfold initFrom
  rw [if_pos hc]
  cases img with
  | none => rfl
  | unreadable => exact absurd rfl hi
  | bytes b => rfl

/-- Settles O47: the configuration, the image and the cartridge, in the order init looks at them. -/
theorem initFailsOnlyByItsTwoErrors : Obligations.InitFailsOnlyByItsTwoErrors := by
  unfold Obligations.InitFailsOnlyByItsTwoErrors
  refine ⟨fun cfg img cart => initFrom_badConfiguration, fun cfg cart => initFrom_unreadable, ?cartError, ?built⟩
  case cartError => exact fun cfg img e hc hi => initFrom_readable hc hi
  case built => exact fun cfg img c hc hi => ⟨initialState cfg img c, initFrom_ok hc hi c⟩

/-- A state that init builds is `initialState` of an admitted configuration. -/
theorem initFrom_next (h : initFrom cfg img cart = .next t) :
    configValid cfg = true ∧ ∃ c, t = initialState cfg img c := by
  by_cases hc : configValid cfg = true
  case neg =>
    rw [initFrom_badConfiguration (Bool.eq_false_of_not_eq_true hc)] at h
    cases h
  by_cases hi : img = .unreadable
  · rw [hi, initFrom_unreadable hc] at h
    cases h
  rw [initFrom_readable hc hi] at h
  cases cart with
  | error e => cases h
  | ok c => exact ⟨hc, c, (Host.Outcome.next.inj h).symm⟩

/-- Settles O52: at the default addresses the boot-control byte 0x01 stands at 0xFF50 alone. -/
theorem resetIsInitWithoutABootImage : Obligations.ResetIsInitWithoutABootImage := by
  unfold Obligations.ResetIsInitWithoutABootImage
  exact initFrom_ok (cfg := Config.defaults) (img := .none) (by decide) nofun Config.resetCart

/-! ### The bytes of the state init builds -/

theorem initialState_byteAt_other {a : Addr} (h : a ≠ cfg.bootCtrlAddr) :
    (initialState cfg img c).byteAt a = 0x00 :=
  Memory.readByte_writeByte_other (addr_toNat_ne h)

/-- Byte `i` of the overlay is the image's, or the pad byte past the image's end (10_state.md R43). -/
theorem overlayAt_initialState_bytes (b : List Byte) (i : Byte) :
    (initialState cfg (.bytes b) c).overlayAt i = b.getD i.toNat 0x00 := by
  have hi : i.toNat < 256 := i.isLt
  have hsize : Config.overlaySize = 256 := rfl
  have hov : (initialState cfg (.bytes b) c).overlayAt i =
      (Memory.storeBytes [] 0 (b.take Config.overlaySize)).readByte i.toNat := rfl
  rw [hov]
  by_cases hlen : i.toNat < b.length
  · have hk : i.toNat < (b.take Config.overlaySize).length := by
      rw [List.length_take, hsize]
      omega
    have hread := Memory.readByte_storeBytes_inside (size := Config.overlaySize) (m := []) (base := 0) rfl
      (by simp) hk
    rw [Nat.zero_add] at hread
    rw [hread, List.getElem_take, List.getD_eq_getElem _ _ hlen]
  · have hout : 0 + (b.take Config.overlaySize).length ≤ i.toNat := by
      rw [List.length_take, hsize]
      omega
    rw [Memory.readByte_storeBytes_outside (.inr hout), List.getD_eq_default _ _ (by omega)]
    rfl

/-- Settles O49: AddressSpace has one cell to set, and the overlay is the image stored from byte 0. -/
theorem initClearsMemoryAndLoadsTheOverlay : Obligations.InitClearsMemoryAndLoadsTheOverlay := by
  unfold Obligations.InitClearsMemoryAndLoadsTheOverlay
  intro cfg c hc
  constructor
  · exact ⟨_, initFrom_ok (img := .none) hc nofun c, fun a => initialState_byteAt_other, fun i => rfl, rfl, rfl⟩
  · exact fun b => ⟨_, initFrom_ok (img := .bytes b) hc nofun c, fun a => initialState_byteAt_other,
      overlayAt_initialState_bytes b, rfl, rfl⟩

/-! ### The invariant at init -/

theorem overlayOf_wf (img : BootImage) : (overlayOf img).wf Config.overlaySize = true := by
  cases img with
  | none => rfl
  | unreadable => rfl
  | bytes b => exact Memory.storeBytes_wf rfl (by simp)

/-- At init every byte of working RAM, its echo and the cartridge's windows is 0x00: the one other byte is a
register's. -/
theorem initialState_inv (hc : configValid cfg = true) : Inv (initialState cfg img c) where
  config := hc
  memory := Memory.writeByte_wf rfl cfg.bootCtrlAddr.isLt
  overlay := overlayOf_wf img
  echo a ha := by
    rw [initialState_byteAt_other (ne_bootCtrlAddr_of_workingRam hc (.inl ha)),
      initialState_byteAt_other (ne_bootCtrlAddr_of_workingRam hc (.inr (inEcho_echoUp ha)))]
  shadow a ha := by
    obtain ⟨-, hb, -⟩ := configValid_ranges hc
    rw [inRomWrite_iff, inRamWindow_iff] at ha
    exact initialState_byteAt_other (by bv_omega)
  count := show (0 : Byte).toNat < 160 by decide
  idle _ := rfl

/-- Settles O39: init builds `initialState` or nothing. -/
theorem initMeetsTheInvariant : Obligations.InitMeetsTheInvariant := by
  unfold Obligations.InitMeetsTheInvariant
  intro cfg img cart t h
  obtain ⟨hc, c, rfl⟩ := initFrom_next h
  exact initialState_inv hc

/-- Settles O38: the reset state is one that init builds. -/
theorem resetMeetsTheInvariant : Obligations.ResetMeetsTheInvariant := by
  unfold Obligations.ResetMeetsTheInvariant
  exact initMeetsTheInvariant _ _ _ _ resetIsInitWithoutABootImage

end Sys2Proof.Machine

/-! PROOFS. The statements about every step: the whole-state invariant (10_state.md sections 5 and 7), the
overlay that no command writes (R24), and the overlay that no run can see after the switch (R25). -/

namespace Sys2Proof.Machine

variable {s t : State} {a start : Addr} {v : Byte} {i : Instr}

/-! ### What each update does to the invariant -/

/-- Neither the cartridge nor the ports matter; that an update keeps the rest is the simp set of Laws/State. -/
theorem Inv.congr (h : Inv s) (hc : t.cfg = s.cfg := by simp) (hm : t.mem = s.mem := by simp)
    (ho : t.ov = s.ov := by simp) (hd : t.dma = s.dma := by simp) : Inv t := by
  have hbyte (a : Addr) : t.byteAt a = s.byteAt a := by
    unfold State.byteAt
    rw [hm]
  constructor
  case config => exact hc ▸ h.config
  case memory => exact hm ▸ h.memory
  case overlay => exact ho ▸ h.overlay
  case echo => exact fun a ha => by rw [hbyte, hbyte, h.echo a ha]
  case shadow => exact fun a ha => (hbyte a).trans (h.shadow a ha)
  case count => exact hd ▸ h.count
  case idle => exact hd ▸ h.idle

/-- STEP keeps the count below the window's length, and at 0 when the engine is idle. -/
theorem advance_keeps_inv (h : Inv s) : Inv (s.withDma s.dma.advance) := by
  have hn : s.dma.elapsed.toNat < 160 := h.count
  have hdma : s.dma.advance.elapsed.toNat < 160 ∧ (s.dma.advance.active = false → s.dma.advance.elapsed = 0) := by
    cases ha : s.dma.active with
    | false =>
      rw [Dma.advance_idle ha]
      exact ⟨hn, h.idle⟩
    | true =>
      by_cases hlast : s.dma.elapsed.toNat + 1 = 160
      · rw [Dma.advance_ends ha hlast]
        exact ⟨by decide, fun _ => rfl⟩
      · rw [Dma.advance_counts ha (by omega)]
        exact ⟨by bv_omega, nofun⟩
  exact ⟨h.config, h.memory, h.overlay, h.echo, h.shadow, hdma.1, hdma.2⟩

/-- A restarted window counts from 0. -/
theorem activeZero_keeps_inv (h : Inv s) : Inv (s.withDma ⟨true, 0⟩) :=
  ⟨h.config, h.memory, h.overlay, h.echo, h.shadow, show (0 : Byte).toNat < 160 by decide, nofun⟩

/-- Stores keep the invariant if they keep the canonical form, the echo and the shadowed bytes. -/
theorem Inv.of_stores (h : Inv s) (hm : t.mem.wf Config.spaceSize = true) (hecho : EchoCoherent t)
    (hshadow : ∀ a, inRomWrite a = true ∨ inRamWindow a = true → t.byteAt a = s.byteAt a)
    (hc : t.cfg = s.cfg := by simp) (ho : t.ov = s.ov := by simp) (hd : t.dma = s.dma := by simp) : Inv t where
  config := hc ▸ h.config
  memory := hm
  overlay := ho ▸ h.overlay
  echo := hecho
  shadow a ha := (hshadow a ha).trans (h.shadow a ha)
  count := hd ▸ h.count
  idle := hd ▸ h.idle

/-- A store outside working RAM, its echo and the cartridge's windows. -/
theorem setByte_keeps_inv (h : Inv s) (hw : ¬(inRomWrite a = true ∨ inRamWindow a = true))
    (hr : ¬inEchoedRam a = true) (he : ¬inEcho a = true) : Inv (s.setByte a v) := by
  refine h.of_stores (setByte_mem_wf h.memory) (fun b hb => ?_) fun b hb => byteAt_setByte_other ?_
  · have hne : b ≠ a := fun e => hr (e ▸ hb)
    have hneUp : echoUp b ≠ a := fun e => he (e ▸ inEcho_echoUp hb)
    exact (byteAt_setByte_other hne).trans ((h.echo b hb).trans (byteAt_setByte_other hneUp).symm)
  · exact fun e => hw (e ▸ hb)

/-- A store to both aliases of a byte of working RAM. -/
theorem setByte_aliases_keeps_inv (h : Inv s) (ha : inEchoedRam a = true) :
    Inv ((s.setByte a v).setByte (echoUp a) v) := by
  refine h.of_stores (setByte_mem_wf (setByte_mem_wf h.memory)) (fun b hb => ?echo) fun b hb => ?shadow
  case echo =>
    have hlo := inEchoedRam_iff.1 hb
    have hup := inEcho_iff.1 (inEcho_echoUp hb)
    have halo := inEchoedRam_iff.1 ha
    have haup := inEcho_iff.1 (inEcho_echoUp ha)
    have hsame : (b = a ∨ b = echoUp a) ↔ (echoUp b = a ∨ echoUp b = echoUp a) := by
      unfold echoUp at *
      bv_omega
    exact (byteAt_setByte_pair h.memory b).trans
      ((if_congr hsame rfl (h.echo b hb)).trans (byteAt_setByte_pair h.memory (echoUp b)).symm)
  case shadow =>
    have halo := inEchoedRam_iff.1 ha
    have haup := inEcho_iff.1 (inEcho_echoUp ha)
    rw [inRomWrite_iff, inRamWindow_iff] at hb
    exact byteAt_setByte_pair_other (by bv_omega) (by bv_omega)

theorem memWrite_keeps_inv (a : Addr) (v : Byte) (h : Inv s) : Inv (memWrite s a v) := by
  obtain ⟨-, e⟩ | ⟨ha, e⟩ | ⟨ha, e⟩ | ⟨-, e⟩ | ⟨u, ⟨hrom, hram, hr, he, -⟩, e⟩ :=
    memWrite_cases h.config a v <;> rw [e]
  · exact h.congr
  · exact setByte_aliases_keeps_inv h ha
  · rw [setByte_comm h.memory]
    have hinv := setByte_aliases_keeps_inv (v := v) h (inEchoedRam_echoDown ha)
    rwa [echoUp_echoDown] at hinv
  · exact h
  · refine setByte_keeps_inv h ?_ ?_ ?_ <;> simp [hrom, hram, hr, he]

/-- IF is a register, above all that the invariant speaks of. -/
theorem setIfReg_keeps_inv (v : Byte) (h : Inv s) : Inv (s.setIfReg v) := by
  obtain ⟨-, -, hif, -⟩ := configValid_ranges h.config
  refine setByte_keeps_inv h ?_ ?_ ?_
  · rw [inRomWrite_iff, inRamWindow_iff]
    bv_omega
  · rw [inEchoedRam_iff]
    bv_omega
  · rw [inEcho_iff]
    bv_omega

/-- The sprite table lies outside working RAM, its echo and the cartridge's windows. -/
theorem dmaCopy_keeps_inv (start : Addr) (h : Inv s) : Inv (dmaCopy s start) := by
  refine h.of_stores (dmaCopy_mem_wf h.memory) (fun b hb => ?echo) fun b hb => dmaCopy_outside ?shadow
  case echo =>
    have hlo := inEchoedRam_iff.1 hb
    have hup := inEcho_iff.1 (inEcho_echoUp hb)
    exact (dmaCopy_outside (.inl (by bv_omega))).trans
      ((h.echo b hb).trans (dmaCopy_outside (.inl (by bv_omega))).symm)
  case shadow =>
    rw [inRomWrite_iff, inRamWindow_iff] at hb
    exact .inl (by bv_omega)

theorem exec_keeps_inv (h : Inv s) (he : exec i s = .next t) : Inv t := by
  obtain ⟨-, rfl⟩ | ⟨a, -, rfl⟩ | ⟨a, v, -, rfl⟩ | ⟨k, -, -, r, rfl⟩ | ⟨k, v, -, -, rfl⟩ | ⟨a, -, rfl⟩ :=
    exec_cases he
  · exact (advance_keeps_inv h).congr
  · exact h.congr
  · exact (memWrite_keeps_inv a v h).congr
  · exact h.congr
  · exact (setIfReg_keeps_inv v h).congr
  · exact (activeZero_keeps_inv (dmaCopy_keeps_inv a h)).congr

theorem step_keeps_inv (h : Inv s) (hs : step s = .next t) : Inv t := by
  obtain ⟨-, rfl⟩ | ⟨w, ws, i, -, -, he⟩ := step_cases hs
  · exact h
  · exact exec_keeps_inv (s := s.withCommands ws) h.congr he

/-- Settles O40: a step does nothing or runs a command, and every command keeps the invariant. -/
theorem everyStepKeepsTheInvariant : Obligations.EveryStepKeepsTheInvariant := by
  unfold Obligations.EveryStepKeepsTheInvariant
  exact fun s t => step_keeps_inv

/-! ### The overlay and the configuration -/

theorem exec_keeps_ov_cfg (h : exec i s = .next t) : t.ov = s.ov ∧ t.cfg = s.cfg := by
  obtain ⟨-, rfl⟩ | ⟨a, -, rfl⟩ | ⟨a, v, -, rfl⟩ | ⟨k, -, -, r, rfl⟩ | ⟨k, v, -, -, rfl⟩ | ⟨a, -, rfl⟩ :=
    exec_cases h
  · exact ⟨rfl, rfl⟩
  · exact ⟨rfl, rfl⟩
  · obtain ⟨hcfg, hov, -⟩ := memWrite_frame s a v
    exact ⟨hov, hcfg⟩
  · exact ⟨rfl, rfl⟩
  · exact ⟨rfl, rfl⟩
  · simp

theorem step_keeps_ov_cfg (h : step s = .next t) : t.ov = s.ov ∧ t.cfg = s.cfg := by
  obtain ⟨-, rfl⟩ | ⟨w, ws, i, -, -, he⟩ := step_cases h
  · exact ⟨rfl, rfl⟩
  · exact exec_keeps_ov_cfg (s := s.withCommands ws) he

/-- Settles O42: every step keeps both, so every run does. -/
theorem overlayIsNeverWritten : Obligations.OverlayIsNeverWritten := by
  unfold Obligations.OverlayIsNeverWritten
  intro k s t hrun
  refine run_keeps (P := fun u => u.ov = s.ov ∧ u.cfg = s.cfg) (fun u v hu hs => ?_) k s t ⟨rfl, rfl⟩ hrun
  obtain ⟨hov, hcfg⟩ := step_keeps_ov_cfg hs
  exact ⟨hov.trans hu.1, hcfg.trans hu.2⟩

/-! ### After the switch nothing depends on the overlay -/

/-- With the overlay off no read looks at it. -/
theorem memRead_withOverlay (o : Memory) (h : s.overlayActive = false) (a : Addr) :
    memRead (s.withOverlay o) a = memRead s a := by
  unfold memRead
  rw [State.withOverlay_overlayActive, h]
  simp

theorem State.withOverlay_withMem (s : State) (o m : Memory) :
    (s.withOverlay o).withMem m = (s.withMem m).withOverlay o := rfl

theorem dmaCopy_withOverlay (o : Memory) (h : s.overlayActive = false) (start : Addr) :
    dmaCopy (s.withOverlay o) start = (dmaCopy s start).withOverlay o := by
  unfold dmaCopy
  rw [dmaBuffer_congr (memRead_withOverlay o h), State.withOverlay_mem, State.withOverlay_withMem]

theorem withBit_withOverlay {k : Nat} {u : State} (o : Memory) (h : withBit k (.next u) = .next t) :
    withBit k (.next (u.withOverlay o)) = .next (t.withOverlay o) := by
  obtain ⟨hk, e⟩ := withBit_next.1 h
  obtain rfl := Host.Outcome.next.inj e
  exact withBit_admitted hk

/-- With the overlay off every command carries it along unread. -/
theorem exec_withOverlay (o : Memory) (hoff : s.overlayActive = false) (h : exec i s = .next t) :
    exec i (s.withOverlay o) = .next (t.withOverlay o) := by
  cases i with
  | step =>
    obtain rfl := Host.Outcome.next.inj h
    rfl
  | read a =>
    obtain rfl := Host.Outcome.next.inj h
    rw [exec_read, memRead_withOverlay o hoff]
    rfl
  | write a v =>
    obtain rfl := Host.Outcome.next.inj h
    rw [exec_write, memWrite_withOverlay]
    rfl
  | ietest k => exact withBit_withOverlay o h
  | iftest k => exact withBit_withOverlay o h
  | ifset k => exact withBit_withOverlay o h
  | ifclr k => exact withBit_withOverlay o h
  | dma a =>
    obtain rfl := Host.Outcome.next.inj h
    rw [exec_dma, dmaCopy_withOverlay o hoff]
    rfl

theorem step_withOverlay (o : Memory) (hoff : s.overlayActive = false) (h : step s = .next t) :
    step (s.withOverlay o) = .next (t.withOverlay o) := by
  obtain ⟨hw, rfl⟩ | ⟨w, ws, i, hw, hi, he⟩ := step_cases h
  · exact step_idle hw
  · rw [step_waiting (s := s.withOverlay o) hw, runWord_of_decode hi]
    exact exec_withOverlay (s := s.withCommands ws) o hoff he

/-- The switch stays thrown (`step_keeps_bootOff`), so every step of the run carries the overlay along unread. -/
theorem run_withOverlay (o : Memory) (k : Nat) (hoff : BootOff s) (h : Sys2Proof.core.run k s = .next t) :
    Sys2Proof.core.run k (s.withOverlay o) = .next (t.withOverlay o) := by
  induction k generalizing s with
  | zero =>
    obtain rfl := Host.Outcome.next.inj h
    rfl
  | succ k ih =>
    cases hs : step s with
    | next u =>
      rw [run_succ_next k hs] at h
      rw [run_succ_next k (step_withOverlay o (overlayActive_eq_false_iff.2 hoff.switched) hs)]
      exact ih (step_keeps_bootOff hoff hs) h
    | fault f =>
      rw [run_succ_fault k hs] at h
      cases h
    | refused r =>
      rw [run_succ_refused k hs] at h
      cases h

/-- Settles O43: two runs that differ in the overlay alone take the same steps. -/
theorem overlayIsUnobservableAfterTheSwitch : Obligations.OverlayIsUnobservableAfterTheSwitch := by
  unfold Obligations.OverlayIsUnobservableAfterTheSwitch
  exact fun k s t o hinv hb hrun => run_withOverlay o k ⟨hinv.config, hinv.memory, hb⟩ hrun

end Sys2Proof.Machine
